-- ==== Sys2Proof/Word.lean ====
section
/-!
DEFINITION. The word types of the block, each with the width 00_scope.md R4 gives it. Every value is
unsigned and bit 0 is the least significant bit (R5).
-/

namespace Sys2Proof

/-- A raw byte (`BYTE_W`, 8 bits) or a character code (`CHAR_W`, 8 bits). -/
abbrev Byte := BitVec 8

/-- A raw 6-bit value or a table index (`SYM_W`, 6 bits). -/
abbrev Sym := BitVec 6

/-- A command word (`CMD_W`, 16 bits). -/
abbrev Word := BitVec 16

/-- An output item as it stands on the `OUT` port (`OUT_W`, 10 bits). -/
abbrev ItemWord := BitVec 10

/-- The hash accumulator (`H_W`, 32 bits). -/
abbrev Hash := BitVec 32

end Sys2Proof
end

