-- ==== Sys2Proof/Syntax.lean ====
section
/-!
DEFINITION. The commands of 30_encoding.md R53, one constructor per row of the opcode map, and the fields of
the one command format `C` (R51).
-/

namespace Sys2Proof

/-- The thirteen commands (30_encoding.md R53). The only operand is the 8-bit unsigned `DATA` of a `PUSH`
(R54): a byte for ENC and CHK, a character code for DEC. -/
inductive Instr
  | sysRst                 -- SYS.RST
  | encBegin               -- ENC.BEGIN
  | encPush (data : Byte)  -- ENC.PUSH dd
  | encEnd                 -- ENC.END
  | encAbsent              -- ENC.ABSENT
  | decBegin               -- DEC.BEGIN
  | decPush (data : Byte)  -- DEC.PUSH dd
  | decEnd                 -- DEC.END
  | decAbsent              -- DEC.ABSENT
  | chkBegin               -- CHK.BEGIN
  | chkPush (data : Byte)  -- CHK.PUSH dd
  | chkEnd                 -- CHK.END
  | chkAbsent              -- CHK.ABSENT
deriving DecidableEq, Repr

/-- The three fields of a command word (30_encoding.md R51). -/
structure Fields where
  unit : BitVec 4
  fn   : BitVec 4
  data : Byte
deriving DecidableEq, Repr

/-- The three units that open frames (30_encoding.md R51, R52). -/
inductive FrameUnit
  | enc
  | dec
  | chk
deriving DecidableEq, Repr

/-- Why a word matches no row of the opcode map, the four cases of 30_encoding.md R55. -/
inductive Illegal
  /-- `UNIT` in `0x4` to `0xF`. -/
  | reservedUnit
  /-- `UNIT` in `0x1` to `0x3` with `FN` in `0x4` to `0xF`. -/
  | reservedFunction
  /-- `UNIT = 0x0` with `FN` other than `0x1`. -/
  | reservedSysFunction
  /-- A non-`PUSH` command with `DATA` not `0x00`. -/
  | dataNotZero
deriving DecidableEq, Repr

/-- What the decoder reads from a word: a command, or an illegal word by name. -/
inductive Decoded
  | command (i : Instr)
  | illegal (why : Illegal)
deriving DecidableEq, Repr

end Sys2Proof
end

