-- ==== Sys2Proof/Decode.lean ====
section
/-!
DEFINITION. Decoding, total on all 65536 words (30_encoding.md R53, R55), the encoder written from the same
map, and the map itself as data (`opcodeRows`, one row per line of R53's table).
-/

namespace Sys2Proof

/-- The fields `UNIT[15:12]`, `FN[11:8]`, `DATA[7:0]` of a word (30_encoding.md R51). -/
def splitWord (w : Word) : Fields where
  unit := w.extractLsb' 12 4
  fn   := w.extractLsb' 8 4
  data := w.extractLsb' 0 8

/-- A command without operand: its `DATA` must be `0x00` (R51). -/
def plainCommand (data : Byte) (i : Instr) : Decoded :=
  if data = 0 then .command i else .illegal .dataNotZero

/-- The four functions of a frame unit (R51): BEGIN 0, PUSH 1, END 2, ABSENT 3. -/
def decodeFrameUnit (f : Fields) (begin_ : Instr) (push : Byte → Instr) (end_ absent : Instr) : Decoded :=
  if f.fn = 0x0 then plainCommand f.data begin_
  else if f.fn = 0x1 then .command (push f.data)
  else if f.fn = 0x2 then plainCommand f.data end_
  else if f.fn = 0x3 then plainCommand f.data absent
  else .illegal .reservedFunction

/-- Decoding by fields (R51): units SYS 0, ENC 1, DEC 2, CHK 3. -/
def decodeFields (f : Fields) : Decoded :=
  if f.unit = 0x0 then
    if f.fn = 0x1 then plainCommand f.data .sysRst else .illegal .reservedSysFunction
  else if f.unit = 0x1 then decodeFrameUnit f .encBegin .encPush .encEnd .encAbsent
  else if f.unit = 0x2 then decodeFrameUnit f .decBegin .decPush .decEnd .decAbsent
  else if f.unit = 0x3 then decodeFrameUnit f .chkBegin .chkPush .chkEnd .chkAbsent
  else .illegal .reservedUnit

/-- The decoder. It depends on the word alone (44_system.md R154). -/
def decode (w : Word) : Decoded := decodeFields (splitWord w)

/-- The word of a command, from the `word` column of R53. -/
def encode : Instr → Word
  | .sysRst    => 0x0100
  | .encBegin  => 0x1000
  | .encPush d => 0x11#8 ++ d
  | .encEnd    => 0x1200
  | .encAbsent => 0x1300
  | .decBegin  => 0x2000
  | .decPush d => 0x21#8 ++ d
  | .decEnd    => 0x2200
  | .decAbsent => 0x2300
  | .chkBegin  => 0x3000
  | .chkPush d => 0x31#8 ++ d
  | .chkEnd    => 0x3200
  | .chkAbsent => 0x3300

/-- One row of R53's table: a word `w` selects it when `w & mask = pattern`; `command` is the command it
selects, given the word's `DATA` field. -/
structure OpcodeRow where
  mnemonic : String
  pattern  : Word
  mask     : Word
  command  : Byte → Instr

/-- `w` selects the row (R53). -/
def OpcodeRow.selects (r : OpcodeRow) (w : Word) : Prop := w &&& r.mask = r.pattern

/-- R53's table, row by row. -/
def opcodeRows : List OpcodeRow :=
  [ ⟨"SYS.RST",    0x0100, 0xFFFF, fun _ => .sysRst⟩,
    ⟨"ENC.BEGIN",  0x1000, 0xFFFF, fun _ => .encBegin⟩,
    ⟨"ENC.PUSH",   0x1100, 0xFF00, .encPush⟩,
    ⟨"ENC.END",    0x1200, 0xFFFF, fun _ => .encEnd⟩,
    ⟨"ENC.ABSENT", 0x1300, 0xFFFF, fun _ => .encAbsent⟩,
    ⟨"DEC.BEGIN",  0x2000, 0xFFFF, fun _ => .decBegin⟩,
    ⟨"DEC.PUSH",   0x2100, 0xFF00, .decPush⟩,
    ⟨"DEC.END",    0x2200, 0xFFFF, fun _ => .decEnd⟩,
    ⟨"DEC.ABSENT", 0x2300, 0xFFFF, fun _ => .decAbsent⟩,
    ⟨"CHK.BEGIN",  0x3000, 0xFFFF, fun _ => .chkBegin⟩,
    ⟨"CHK.PUSH",   0x3100, 0xFF00, .chkPush⟩,
    ⟨"CHK.END",    0x3200, 0xFFFF, fun _ => .chkEnd⟩,
    ⟨"CHK.ABSENT", 0x3300, 0xFFFF, fun _ => .chkAbsent⟩ ]

/-- A word given as a number of `nbits` bits, bit 0 its least significant bit; bits above `nbits` are 0. A
command is one whole 16-bit transfer on `CMD` (30_encoding.md R50), so no byte order enters (log entry 10). -/
def tableWord (nbits w : Nat) : Word := BitVec.ofNat 16 (w % 2 ^ nbits)

/-- The command the decoder reads from an instruction whose bits are `w`, none where it is illegal. -/
def decodeTableWord (nbits w : Nat) : Option Instr :=
  match decode (tableWord nbits w) with
  | .command i => some i
  | .illegal _ => none

end Sys2Proof
end

