-- ==== Sys2Proof/Config.lean ====
section
/-!
DEFINITION. What an implementation fixes (00_scope.md R4). The one OPEN parameter is the checksum's salt:
no source gives its bytes or its length, and a model must not assume any of them (20_memory.md R34,
91_not_in_source.md N1). The other parameters are fixed by the spec and stand where they are used.
-/

namespace Sys2Proof

/-- `SALT`, the content of `SALTROM`: a finite sequence of bytes, possibly empty. Opaque: nothing can be
proved of its bytes or its length, so a claim about the CHK unit holds for every salt.
DESIGN CHOICE (log entry 1), safe. -/
opaque Config.salt : List Byte

/-- `SALT_LEN = length(SALT)` (R4). -/
def Config.saltLen : Nat := Config.salt.length

end Sys2Proof
end

