-- ==== Sys2Proof/Machine/Alphabet.lean ====
section
/-!
DEFINITION. The ALPHA unit (40_alphabet.md): the two tables, their look-ups `symbolAt` and `indexOf`, and the
position-dependent substitution and its inverse, both over any position (function layer) and over the 6-bit
`POS` (machine layer).
-/

namespace Sys2Proof

/-- The alphabet string (40_alphabet.md R65), leftmost character at index 0. -/
def alphabetString : String := "hF13s_u52WRvIdxVDAKwNg0qEOoBP6YTnQjHyfZbSz7JaMXtiLGlcpr9U8emCk-4"

/-- `ALPHA`, entry by entry: the `code` column of R65's table. The codes are ASCII, which the spec marks as
supplied from general knowledge. PRESUMED (log entry 9). -/
def alphaTable : List Byte :=
  [0x68, 0x46, 0x31, 0x33, 0x73, 0x5F, 0x75, 0x35] ++
  [0x32, 0x57, 0x52, 0x76, 0x49, 0x64, 0x78, 0x56] ++
  [0x44, 0x41, 0x4B, 0x77, 0x4E, 0x67, 0x30, 0x71] ++
  [0x45, 0x4F, 0x6F, 0x42, 0x50, 0x36, 0x59, 0x54] ++
  [0x6E, 0x51, 0x6A, 0x48, 0x79, 0x66, 0x5A, 0x62] ++
  [0x53, 0x7A, 0x37, 0x4A, 0x61, 0x4D, 0x58, 0x74] ++
  [0x69, 0x4C, 0x47, 0x6C, 0x63, 0x70, 0x72, 0x39] ++
  [0x55, 0x38, 0x65, 0x6D, 0x43, 0x6B, 0x2D, 0x34]

/-- `MemRead(ALPHA, i, 1)` (20_memory.md R32): the 6-bit index cannot be out of range. -/
def alphaRom (i : Sym) : Byte := alphaTable.getD i.toNat 0

/-- `symbolAt(index)` (40_alphabet.md R66). -/
def symbolAt (i : Sym) : Byte := alphaRom i

/-- The 64 valid entries of `INV`, ordered by code: R69's table. -/
def invTable : List (Byte × Sym) :=
  [(0x2D, 62), (0x30, 22), (0x31, 2), (0x32, 8), (0x33, 3), (0x34, 63), (0x35, 7), (0x36, 29)] ++
  [(0x37, 42), (0x38, 57), (0x39, 55), (0x41, 17), (0x42, 27), (0x43, 60), (0x44, 16), (0x45, 24)] ++
  [(0x46, 1), (0x47, 50), (0x48, 35), (0x49, 12), (0x4A, 43), (0x4B, 18), (0x4C, 49), (0x4D, 45)] ++
  [(0x4E, 20), (0x4F, 25), (0x50, 28), (0x51, 33), (0x52, 10), (0x53, 40), (0x54, 31), (0x55, 56)] ++
  [(0x56, 15), (0x57, 9), (0x58, 46), (0x59, 30), (0x5A, 38), (0x5F, 5), (0x61, 44), (0x62, 39)] ++
  [(0x63, 52), (0x64, 13), (0x65, 58), (0x66, 37), (0x67, 21), (0x68, 0), (0x69, 48), (0x6A, 34)] ++
  [(0x6B, 61), (0x6C, 51), (0x6D, 59), (0x6E, 32), (0x6F, 26), (0x70, 53), (0x71, 23), (0x72, 54)] ++
  [(0x73, 4), (0x74, 47), (0x75, 6), (0x76, 11), (0x77, 19), (0x78, 14), (0x79, 36), (0x7A, 41)]

/-- `MemRead(INV, ch, 1)` (20_memory.md R33): the 7-bit entry, bit 6 `valid`, bits 5 to 0 `idx`. -/
def invRom (ch : Byte) : BitVec 7 :=
  match invTable.lookup ch with
  | some i => 1#1 ++ i
  | none => 0

/-- The `valid` bit of an entry of `INV` (R33). -/
def invValid (e : BitVec 7) : Bool := e.getLsbD 6

/-- The `idx` field of an entry of `INV` (R33). -/
def invIdx (e : BitVec 7) : Sym := e.extractLsb' 0 6

/-- `indexOf(character)` (40_alphabet.md R68), Invalid as `none`: no rule does arithmetic on it. -/
def indexOf (ch : Byte) : Option Sym :=
  if invValid (invRom ch) then some (invIdx (invRom ch)) else none

/-- `subst(c, v) = (c + v) mod 64` for any position `c` (40_alphabet.md R70). -/
def subst (c : Nat) (v : Sym) : Sym := BitVec.ofNat 6 ((c + v.toNat) % 64)

/-- `unsubst(c, i) = i - (c mod 64)`, plus 64 if negative, for any position `c` (40_alphabet.md R71). -/
def unsubst (c : Nat) (i : Sym) : Sym :=
  let d : Int := (i.toNat : Int) - ((c % 64 : Nat) : Int)
  BitVec.ofNat 6 (if d < 0 then d + 64 else d).toNat

/-- The datapath of `subst`: the low 6 bits of `POS + v` (R70). -/
def substPos (pos v : Sym) : Sym := pos + v

/-- The datapath of `unsubst`: `i - POS` in 6-bit wrap-around arithmetic (R71). -/
def unsubstPos (pos i : Sym) : Sym := i - pos

end Sys2Proof
end

