-- ==== Sys2Proof/Machine/Codec.lean ====
section
/-!
DEFINITION. The function layer (00_scope.md section 1): `encode` (41_encode.md section 1), `decode`
(42_decode.md section 1) and `checksumFast` (43_checksum.md section 1) as total functions on whole inputs. A
character is its 8-bit code (92_eei_decisions.md D7; log entry 9).
-/

namespace Sys2Proof.Codec

/-- `raw6[0] = b0 >> 2` (41_encode.md R76). -/
def raw0 (b0 : Byte) : Sym := (b0 >>> 2).setWidth 6

/-- `raw6[1] = ((b0 & 3) << 4) | (b1 >> 4)` (R76). -/
def raw1 (b0 b1 : Byte) : Sym := (((b0 &&& 3) <<< 4) ||| (b1 >>> 4)).setWidth 6

/-- `raw6[2] = ((b1 & 15) << 2) | (b2 >> 6)` (R76). -/
def raw2 (b1 b2 : Byte) : Sym := (((b1 &&& 15) <<< 2) ||| (b2 >>> 6)).setWidth 6

/-- `raw6[3] = b2 & 63` (R76). -/
def raw3 (b2 : Byte) : Sym := (b2 &&& 63).setWidth 6

/-- `raw(b)` (41_encode.md R79): full groups by R76, then the remainder by R77, whose last value has no bits
from a missing byte. -/
def raw : List Byte → List Sym
  | b0 :: b1 :: b2 :: t => raw0 b0 :: raw1 b0 b1 :: raw2 b1 b2 :: raw3 b2 :: raw t
  | [b0, b1] => [raw0 b0, raw1 b0 b1, ((b1 &&& 15) <<< 2).setWidth 6]
  | [b0] => [raw0 b0, ((b0 &&& 3) <<< 4).setWidth 6]
  | [] => []

/-- The symbols of raw values that stand at positions `c`, `c + 1`, ... (41_encode.md R78). -/
def symbolsFrom (c : Nat) : List Sym → List Byte
  | [] => []
  | v :: t => symbolAt (subst c v) :: symbolsFrom (c + 1) t

/-- `encode(bytes or absent) -> string` (41_encode.md R75): the three cases in their order. -/
def encode : Option (List Byte) → List Byte
  | none => []
  | some [] => [symbolAt 0]
  | some (b :: t) => symbolsFrom 0 (raw (b :: t))

/-- The two causes of a decode error (00_scope.md R6, 30_encoding.md R58). -/
inductive Cause
  | char
  | len
deriving DecidableEq, Repr

/-- A decode result: `Absent`, `Present(bytes)` or `Error(cause)` (00_scope.md R6). -/
inductive Result
  | absent
  | present (s : List Byte)
  | error (c : Cause)
deriving DecidableEq, Repr

/-- `byte0 = (r0 << 2) | (r1 >> 4)` (42_decode.md R107). -/
def byte0 (r0 r1 : Sym) : Byte := (r0.setWidth 8 <<< 2) ||| (r1.setWidth 8 >>> 4)

/-- `byte1 = ((r1 & 15) << 4) | (r2 >> 2)` (R107). -/
def byte1 (r1 r2 : Sym) : Byte := ((r1.setWidth 8 &&& 15) <<< 4) ||| (r2.setWidth 8 >>> 2)

/-- `byte2 = ((r2 & 3) << 6) | r3` (R107). -/
def byte2 (r2 r3 : Sym) : Byte := ((r2.setWidth 8 &&& 3) <<< 6) ||| r3.setWidth 8

/-- `bytes(r)` (42_decode.md R108): full groups by R107, then a remainder of three or two values by R106. A
remainder of one value reconstructs nothing; `decode` never asks for it (R101). -/
def bytesOf : List Sym → List Byte
  | r0 :: r1 :: r2 :: r3 :: t => byte0 r0 r1 :: byte1 r1 r2 :: byte2 r2 r3 :: bytesOf t
  | [r0, r1, r2] => [byte0 r0 r1, byte1 r1 r2]
  | [r0, r1] => [byte0 r0 r1]
  | [_] => []
  | [] => []

/-- The raw values of the characters that stand at positions `c`, `c + 1`, ... (42_decode.md R103, R104);
none when any of them is outside the alphabet: `unsubst` is never applied to Invalid (R105). -/
def rawOf (c : Nat) : List Byte → Option (List Sym)
  | [] => some []
  | ch :: t =>
    match indexOf ch, rawOf (c + 1) t with
    | some i, some r => some (unsubst c i :: r)
    | _, _ => none

/-- `decode(string or absent)` (42_decode.md R100): the cases in their order. One character alone is not
looked up (90_conflicts.md C1). -/
def decode : Option (List Byte) → Result
  | none => .absent
  | some [] => .absent
  | some [_] => .present []
  | some (c0 :: c1 :: t) =>
    match rawOf 0 (c0 :: c1 :: t) with
    | none => .error .char
    | some r => if r.length % 4 = 1 then .error .len else .present (bytesOf r)

/-- `fold(h, b) = (31*h + b) mod 2^32`, `b` zero-extended (43_checksum.md R131). -/
def fold (h : Hash) (b : Byte) : Hash := 31 * h + b.setWidth 32

/-- Folding a sequence of bytes in index order (43_checksum.md R132, R133). -/
def foldAll (h : Hash) (bs : List Byte) : Hash := bs.foldl fold h

/-- The four bytes of `h`, most significant first (43_checksum.md R134; the only `EXTRACT_MODE`). -/
def cut (h : Hash) : List Byte :=
  [h.extractLsb' 24 8, h.extractLsb' 16 8, h.extractLsb' 8 8, h.extractLsb' 0 8]

/-- The rendering of the hash after the content fold: fold the salt, cut, encode (R133, R134, R135). -/
def render (salt : List Byte) (h : Hash) : List Byte := encode (some (cut (foldAll h salt)))

/-- `checksumFast(content or absent) -> string` for a given salt (43_checksum.md R130). -/
def checksumFast (salt : List Byte) : Option (List Byte) → List Byte
  | none => render salt 0
  | some b => render salt (foldAll 0 b)

end Sys2Proof.Codec
end

