-- ==== Sys2Proof/Machine/Operands.lean ====
section
/-!
DEFINITION. The operand and the datapath fields: `DATA` (30_encoding.md R54), the raw 6-bit values the ENC
commands form from `CARRY` and a byte (41_encode.md R83, R84), the bytes `DEC.PUSH` forms from `CARRY` and a
raw value (42_decode.md R112), and what each leaves in `CARRY` (10_state.md R16).
-/

namespace Sys2Proof.Machine

/-- `zext_32(DATA)`, the operand of `CHK.PUSH` (30_encoding.md R54, 43_checksum.md R138). -/
def zextData (b : Byte) : Hash := b.setWidth 32

/-- `b >> 2`, the raw value at `PHASE = 0` (41_encode.md R83). -/
def encHigh6 (b : Byte) : Sym := b.extractLsb' 2 6

/-- `(CARRY[1:0] << 4) | (b >> 4)`, the raw value at `PHASE = 1` (R83). -/
def encJoin2 (carry : BitVec 6) (b : Byte) : Sym := carry.extractLsb' 0 2 ++ b.extractLsb' 4 4

/-- `(CARRY[3:0] << 2) | (b >> 6)`, the first raw value at `PHASE = 2` (R83). -/
def encJoin4 (carry : BitVec 6) (b : Byte) : Sym := carry.extractLsb' 0 4 ++ b.extractLsb' 6 2

/-- `b & 63`, the second raw value at `PHASE = 2` (R83). -/
def encLow6 (b : Byte) : Sym := b.extractLsb' 0 6

/-- `b & 3` in the 6 bits of `CARRY` (R83). -/
def encKeep2 (b : Byte) : BitVec 6 := (b.extractLsb' 0 2).setWidth 6

/-- `b & 15` in the 6 bits of `CARRY` (R83). -/
def encKeep4 (b : Byte) : BitVec 6 := (b.extractLsb' 0 4).setWidth 6

/-- `CARRY[1:0] << 4`, the last raw value of a 1-byte remainder (41_encode.md R84). -/
def encTail2 (carry : BitVec 6) : Sym := carry.extractLsb' 0 2 ++ 0#4

/-- `CARRY[3:0] << 2`, the last raw value of a 2-byte remainder (R84). -/
def encTail4 (carry : BitVec 6) : Sym := carry.extractLsb' 0 4 ++ 0#2

/-- `(CARRY[5:0] << 2) | (r >> 4)`, byte0 (42_decode.md R112). -/
def decByte0 (carry : BitVec 6) (r : Sym) : Byte := carry ++ r.extractLsb' 4 2

/-- `(CARRY[3:0] << 4) | (r >> 2)`, byte1 (R112). -/
def decByte1 (carry : BitVec 6) (r : Sym) : Byte := carry.extractLsb' 0 4 ++ r.extractLsb' 2 4

/-- `(CARRY[1:0] << 6) | r`, byte2 (R112). -/
def decByte2 (carry : BitVec 6) (r : Sym) : Byte := carry.extractLsb' 0 2 ++ r

/-- `r & 15` in `CARRY` (R112). -/
def decKeep4 (r : Sym) : BitVec 6 := r &&& 15

/-- `r & 3` in `CARRY` (R112). -/
def decKeep2 (r : Sym) : BitVec 6 := r &&& 3

end Sys2Proof.Machine
end

