-- ==== Sys2Proof/Machine/State.lean ====
section
/-!
DEFINITION. The state of the block as plain data (10_state.md R10): seven registers, the output stream `OUT`,
and the host's input events not yet taken. The three ROMs are constants, not state (20_memory.md R31).
-/

namespace Sys2Proof.Machine

/-- `MODE` (10_state.md R13): exactly five values. -/
inductive Mode
  | idle   -- no frame open
  | enc    -- an encode frame is open
  | dec    -- a decode frame is open
  | chk    -- a checksum frame is open
  | fault  -- a protocol fault has been raised and no reset has followed
deriving DecidableEq, Repr

/-- The status a `TERM` item carries (30_encoding.md R57): exactly seven. -/
inductive TermCode
  | ok
  | absent
  | errChar
  | errLen
  | illegalCmd
  | badSequence
  | aborted
deriving DecidableEq, Repr

/-- An item of `OUT` (30_encoding.md R56). -/
inductive Item
  | data (d : Byte)
  | term (c : TermCode)
deriving DecidableEq, Repr

/-- What the host does to the block (20_memory.md R42; 30_encoding.md R50): presents one command word on
`CMD`, or asserts `RESET` and releases it (one event: log entry 2). -/
inductive Input
  | word (w : Word)
  | reset
deriving DecidableEq, Repr

/-- The state of the block. -/
structure State where
  /-- `MODE` (R13). -/
  mode   : Mode
  /-- `POS` (R14), 6 bits: the position of the next symbol or character, modulo 64. -/
  pos    : BitVec 6
  /-- `PHASE` (R15), 2 bits: bytes accepted mod 3 (ENC), characters accepted mod 4 (DEC). -/
  phase  : BitVec 2
  /-- `CARRY` (R16), 6 bits: the bits received that have not yet gone out. -/
  carry  : BitVec 6
  /-- `CNT` (R17), 2 bits: how many PUSH commands the frame has accepted, saturating at 2. -/
  cnt    : BitVec 2
  /-- `ERR` (R18), 1 bit: a character outside the alphabet has been accepted in this DEC frame. -/
  err    : Bool
  /-- `H` (R19), 32 bits: the hash accumulator. -/
  h      : BitVec 32
  /-- `OUT` (R21), append-only, oldest item first. -/
  out    : List Item
  /-- The host's events on `CMD` and `RESET`, in order of arrival, not yet taken (20_memory.md R30). -/
  inputs : List Input
deriving DecidableEq, Repr

/-- The machine has no fault that stops it: its step function is total (44_system.md R154,
93_implementation_defined.md "No behaviour of the block is `stuck`"). A protocol fault and a decode error are
next states. So there is no constructor (log entry 8, safe). -/
inductive Fault
deriving DecidableEq, Repr

/-- Why a step has no meaning in the model. -/
inductive Refusal
  /-- Raised by an arm of `exec` whose command has no meaning yet; safe. No arm raises it now. -/
  | notModelled (mnemonic : String)
deriving DecidableEq, Repr

/-- The machine right after reset (10_state.md R24, 70_reset_and_hazards.md R190): the host has presented
nothing yet. -/
def State.reset : State where
  mode   := .idle
  pos    := 0
  phase  := 0
  carry  := 0
  cnt    := 0
  err    := false
  h      := 0
  out    := []
  inputs := []

end Sys2Proof.Machine
end

