-- ==== Sys2Proof/Machine/Ops.lean ====
section
/-!
DEFINITION. The shared operations every meaning is built from: clearing, emitting, the legality check, raising
a protocol fault and returning from one, taking the host's next event.
-/

namespace Sys2Proof.Machine

/-- "Clear" (10_state.md R22): `POS`, `PHASE`, `CARRY`, `CNT`, `ERR` and `H` to 0. -/
def State.clear (s : State) : State :=
  { s with pos := 0, phase := 0, carry := 0, cnt := 0, err := false, h := 0 }

/-- `MODE <- m`: the only transfer of control (44_system.md R152). -/
def State.setMode (s : State) (m : Mode) : State := { s with mode := m }

/-- `emit`: append one item to `OUT` (00_scope.md R7, 10_state.md R21). -/
def State.emit (s : State) (i : Item) : State := { s with out := s.out ++ [i] }

/-- `emit DATA(d)` for each of `ds`, in order. -/
def State.emitData (s : State) (ds : List Byte) : State := { s with out := s.out ++ ds.map .data }

/-- `emitSym(v)` (41_encode.md R86): look up `symbolAt(subst(POS, v))`, emit it, advance `POS`. -/
def State.emitSym (s : State) (v : Sym) : State :=
  { s.emit (.data (symbolAt (substPos s.pos v))) with pos := s.pos + 1 }

/-- The end every frame has: `emit TERM(c); clear; MODE <- IDLE` (41_encode.md R84, 42_decode.md R115, 43_checksum.md R139). -/
def State.closeFrame (s : State) (c : TermCode) : State := ((s.emit (.term c)).clear).setMode .idle

/-- `raise ProtocolFault(code)` (60_exceptions.md R168): emit the code, clear, `MODE <- FAULT`. Nothing is
saved and no handler is entered (R172). -/
def State.raiseProtocolFault (s : State) (code : TermCode) : State :=
  ((s.emit (.term code)).clear).setMode .fault

/-- What leaves FAULT by command: the effect of `SYS.RST` (44_system.md R150), which abandons an open frame
with `TERM(ABORTED)`, clears, and goes to IDLE. -/
def State.softReset (s : State) : State :=
  let open_ := s.mode = .enc ∨ s.mode = .dec ∨ s.mode = .chk
  ((if open_ then s.emit (.term .aborted) else s).clear).setMode .idle

/-- The order of checks after decoding (44_system.md R154, cases 2, 4 and 5) for a command that is legal only
in mode `m`: ignored in FAULT, `BAD_SEQUENCE` in any other mode than `m`, else its effect. -/
def inMode (m : Mode) (effect : State → State) (s : State) : Host.Outcome State Fault Refusal :=
  if s.mode = .fault then .next s
  else if s.mode = m then .next (effect s)
  else .next (s.raiseProtocolFault .badSequence)

/-- A word that matches no row (44_system.md R154, cases 2 and 3): ignored in FAULT, else `ILLEGAL_CMD`
(60_exceptions.md R166). -/
def illegalWord (s : State) : Host.Outcome State Fault Refusal :=
  if s.mode = .fault then .next s else .next (s.raiseProtocolFault .illegalCmd)

/-- The mode each command is legal in, none for `SYS.RST`, which is legal in every mode (30_encoding.md R52,
R53 column "legal when"). The meanings do not read it: it is the table the statements compare them with. -/
def legalMode : Instr → Option Mode
  | .sysRst    => none
  | .encBegin  => some .idle
  | .encPush _ => some .enc
  | .encEnd    => some .enc
  | .encAbsent => some .idle
  | .decBegin  => some .idle
  | .decPush _ => some .dec
  | .decEnd    => some .dec
  | .decAbsent => some .idle
  | .chkBegin  => some .idle
  | .chkPush _ => some .chk
  | .chkEnd    => some .chk
  | .chkAbsent => some .idle

/-- The command is legal in the mode (30_encoding.md R52). -/
def legalIn (i : Instr) (m : Mode) : Bool :=
  match legalMode i with
  | none => true
  | some m' => m == m'

/-- The host's next event and the state in which it is taken: command words are consumed from the port in
order of arrival (20_memory.md R42, R44). -/
def nextInput (s : State) : Option (Input × State) :=
  match s.inputs with
  | [] => none
  | e :: rest => some (e, { s with inputs := rest })

/-- The `RESET` input, asserted and released (70_reset_and_hazards.md R190): every register at its reset value
and `OUT` empty. What the host will still present is the host's and stays. -/
def applyReset (s : State) : State := { State.reset with inputs := s.inputs }

end Sys2Proof.Machine
end

