-- ==== Sys2Proof/Machine/Chk.lean ====
section
/-!
DEFINITION. The CHK unit's four commands (43_checksum.md section 2). Each effect that reads `SALTROM` takes the
salt as an argument; the commands give it `Config.salt` (20_memory.md R34).
-/

namespace Sys2Proof.Machine

/-- `fold(H, b)` on the accumulator: `(31*H + b) mod 2^32` (43_checksum.md R131). -/
def hashStep (h : Hash) (b : Byte) : Hash := 31 * h + zextData b

/-- The salt folded into `g` entry by entry, index 0 first (43_checksum.md R133, R136). -/
def saltFold (salt : List Byte) (g : Hash) : Hash := salt.foldl hashStep g

/-- `finishChecksum` (43_checksum.md R136): fold the salt, cut `g` big-endian, emit the six symbols of its
encoding and `TERM(OK)`. It uses the function `encode`, not the ENC registers. -/
def finishChecksum (salt : List Byte) (s : State) : State :=
  (s.emitData (Codec.encode (some (Codec.cut (saltFold salt s.h))))).emit (.term .ok)

/-- `CHK.BEGIN`'s effect (43_checksum.md R137). -/
def chkBegin (s : State) : State := s.clear.setMode .chk

/-- `CHK.PUSH b`'s effect (43_checksum.md R138). -/
def chkPush (b : Byte) (s : State) : State := { s with h := hashStep s.h b }

/-- `CHK.END`'s effect (43_checksum.md R139). -/
def chkEnd (salt : List Byte) (s : State) : State := (finishChecksum salt s).clear.setMode .idle

/-- `CHK.ABSENT`'s effect (43_checksum.md R140): `MODE` stays as it is. -/
def chkAbsent (salt : List Byte) (s : State) : State := (finishChecksum salt { s with h := 0 }).clear

/-- `CHK.BEGIN` (43_checksum.md R137). -/
def execChkBegin (s : State) : Host.Outcome State Fault Refusal := inMode .idle chkBegin s

/-- `CHK.PUSH` (43_checksum.md R138). -/
def execChkPush (b : Byte) (s : State) : Host.Outcome State Fault Refusal := inMode .chk (chkPush b) s

/-- `CHK.END` (43_checksum.md R139). -/
def execChkEnd (s : State) : Host.Outcome State Fault Refusal := inMode .chk (chkEnd Config.salt) s

/-- `CHK.ABSENT` (43_checksum.md R140). -/
def execChkAbsent (s : State) : Host.Outcome State Fault Refusal := inMode .idle (chkAbsent Config.salt) s

end Sys2Proof.Machine
end

