-- ==== Sys2Proof/Machine/Flags.lean ====
section
/-!
DEFINITION. The one flag `ERR` (10_state.md R18), the saturating counter `CNT` (R17), and the status wires
`STAT` (R20). No arithmetic result of the block sets a flag.
-/

namespace Sys2Proof.Machine

/-- `ERR | (e[6] = 0)`: `ERR` after a `DEC.PUSH` that read the entry `e` (42_decode.md R112). -/
def errAfter (err : Bool) (e : BitVec 7) : Bool := err || !invValid e

/-- `min(2, CNT + 1)` (10_state.md R17). -/
def cntAfter (cnt : BitVec 2) : BitVec 2 := if cnt = 0 then 1 else 2

/-- The 3-bit value of `MODE` (10_state.md R13). -/
def Mode.code : Mode → BitVec 3
  | .idle  => 0
  | .enc   => 1
  | .dec   => 2
  | .chk   => 3
  | .fault => 7

/-- `STAT = {ERR, MODE[2:0]}` (10_state.md R20): always valid, read-only to the host. -/
def State.stat (s : State) : BitVec 4 := BitVec.ofBool s.err ++ s.mode.code

end Sys2Proof.Machine
end

