-- ==== Sys2Proof/Machine/Dec.lean ====
section
/-!
DEFINITION. The DEC unit's four commands (42_decode.md section 2).
-/

namespace Sys2Proof.Machine

/-- `DEC.BEGIN`'s effect (42_decode.md R111). -/
def decBegin (s : State) : State := s.clear.setMode .dec

/-- What `DEC.PUSH` does with a raw value `r` while `ERR` is clear: the byte it completes, if any, and the new
`CARRY` (42_decode.md R112). -/
def decAccept (r : Sym) (s : State) : State :=
  if s.phase = 0 then { s with carry := r }
  else if s.phase = 1 then { s.emit (.data (decByte0 s.carry r)) with carry := decKeep4 r }
  else if s.phase = 2 then { s.emit (.data (decByte1 s.carry r)) with carry := decKeep2 r }
  else { s.emit (.data (decByte2 s.carry r)) with carry := 0 }

/-- `DEC.PUSH ch`'s effect (42_decode.md R112). -/
def decPush (ch : Byte) (s : State) : State :=
  let e := invRom ch
  let err' := errAfter s.err e
  let t := if err' then s else decAccept (unsubstPos s.pos (invIdx e)) s
  { t with err := err', pos := s.pos + 1, phase := s.phase + 1, cnt := cntAfter s.cnt }

/-- The status `DEC.END` reports (42_decode.md R115). `raise DecodeError(cause)` is the choice of `errChar` or
`errLen` here and nothing else (60_exceptions.md R164); `ERR_CHAR` is tested first (R171). -/
def decStatus (s : State) : TermCode :=
  if s.cnt = 0 then .absent
  else if s.cnt = 1 then .ok
  else if s.err then .errChar
  else if s.phase = 1 then .errLen
  else .ok

/-- `DEC.END`'s effect (42_decode.md R115). -/
def decEnd (s : State) : State := s.closeFrame (decStatus s)

/-- `DEC.ABSENT`'s effect (42_decode.md R116): `MODE` stays as it is. -/
def decAbsent (s : State) : State := (s.emit (.term .absent)).clear

/-- `DEC.BEGIN` (42_decode.md R111). -/
def execDecBegin (s : State) : Host.Outcome State Fault Refusal := inMode .idle decBegin s

/-- `DEC.PUSH` (42_decode.md R112). -/
def execDecPush (ch : Byte) (s : State) : Host.Outcome State Fault Refusal := inMode .dec (decPush ch) s

/-- `DEC.END` (42_decode.md R115). -/
def execDecEnd (s : State) : Host.Outcome State Fault Refusal := inMode .dec decEnd s

/-- `DEC.ABSENT` (42_decode.md R116). -/
def execDecAbsent (s : State) : Host.Outcome State Fault Refusal := inMode .idle decAbsent s

end Sys2Proof.Machine
end

