-- ==== Sys2Proof/Machine/Enc.lean ====
section
/-!
DEFINITION. The ENC unit's four commands (41_encode.md section 2).
-/

namespace Sys2Proof.Machine

/-- `ENC.BEGIN`'s effect (41_encode.md R82). -/
def encBegin (s : State) : State := s.clear.setMode .enc

/-- `ENC.PUSH b`'s effect (41_encode.md R83). PHASE is 0, 1 or 2 in an ENC frame; the last case is the rule's
`else`, read literally for the unreachable PHASE = 3. DESIGN CHOICE (log entry 5). -/
def encPush (b : Byte) (s : State) : State :=
  let t : State :=
    if s.phase = 0 then { s.emitSym (encHigh6 b) with carry := encKeep2 b, phase := 1 }
    else if s.phase = 1 then { s.emitSym (encJoin2 s.carry b) with carry := encKeep4 b, phase := 2 }
    else { (s.emitSym (encJoin4 s.carry b)).emitSym (encLow6 b) with carry := 0, phase := 0 }
  { t with cnt := cntAfter s.cnt }

/-- What `ENC.END` emits before its `TERM` (41_encode.md R84). -/
def encTail (s : State) : State :=
  if s.cnt = 0 then s.emit (.data (symbolAt 0))
  else if s.phase = 1 then s.emitSym (encTail2 s.carry)
  else if s.phase = 2 then s.emitSym (encTail4 s.carry)
  else s

/-- `ENC.END`'s effect (41_encode.md R84). -/
def encEnd (s : State) : State := (encTail s).closeFrame .ok

/-- `ENC.ABSENT`'s effect (41_encode.md R85): `MODE` stays as it is. -/
def encAbsent (s : State) : State := (s.emit (.term .ok)).clear

/-- `ENC.BEGIN` (41_encode.md R82). -/
def execEncBegin (s : State) : Host.Outcome State Fault Refusal := inMode .idle encBegin s

/-- `ENC.PUSH` (41_encode.md R83). -/
def execEncPush (b : Byte) (s : State) : Host.Outcome State Fault Refusal := inMode .enc (encPush b) s

/-- `ENC.END` (41_encode.md R84). -/
def execEncEnd (s : State) : Host.Outcome State Fault Refusal := inMode .enc encEnd s

/-- `ENC.ABSENT` (41_encode.md R85). -/
def execEncAbsent (s : State) : Host.Outcome State Fault Refusal := inMode .idle encAbsent s

end Sys2Proof.Machine
end

