-- ==== Sys2Proof/Machine/Sys.lean ====
section
/-!
DEFINITION. The one system command (44_system.md section 3).
-/

namespace Sys2Proof.Machine

/-- `SYS.RST` (44_system.md R150): obeyed in every mode, FAULT included (R154 case 1). -/
def execSysRst (s : State) : Host.Outcome State Fault Refusal := .next s.softReset

end Sys2Proof.Machine
end

