-- ==== Sys2Proof/Machine/Dispatch.lean ====
section
/-!
DEFINITION. One arm per command; the meaning stands in the unit's file.
-/

namespace Sys2Proof.Machine

/-- The meaning of each command (30_encoding.md R53, column "rule"). -/
def exec (i : Instr) (s : State) : Host.Outcome State Fault Refusal :=
  match i with
  | .sysRst => Sys2Proof.Machine.execSysRst s
  | .encBegin => Sys2Proof.Machine.execEncBegin s
  | .encPush b => Sys2Proof.Machine.execEncPush b s
  | .encEnd => Sys2Proof.Machine.execEncEnd s
  | .encAbsent => Sys2Proof.Machine.execEncAbsent s
  | .decBegin => Sys2Proof.Machine.execDecBegin s
  | .decPush ch => Sys2Proof.Machine.execDecPush ch s
  | .decEnd => Sys2Proof.Machine.execDecEnd s
  | .decAbsent => Sys2Proof.Machine.execDecAbsent s
  | .chkBegin => Sys2Proof.Machine.execChkBegin s
  | .chkPush b => Sys2Proof.Machine.execChkPush b s
  | .chkEnd => Sys2Proof.Machine.execChkEnd s
  | .chkAbsent => Sys2Proof.Machine.execChkAbsent s

end Sys2Proof.Machine
end

