-- ==== Sys2Proof/Machine/Step.lean ====
section
/-!
DEFINITION. One step of the machine (44_system.md R154): take the host's next event, if there is one, and run
it to completion (20_memory.md R40).
-/

namespace Sys2Proof.Machine

/-- One step. With no event the block holds its state (60_exceptions.md R176; log entry 3). `RESET` is
70_reset_and_hazards.md R190. A word is decoded by itself alone; the mode enters in the meaning (R154). -/
def step (s : State) : Host.Outcome State Fault Refusal :=
  match nextInput s with
  | none => .next s
  | some (.reset, t) => .next (applyReset t)
  | some (.word w, t) =>
    match decode w with
    | .command i => exec i t
    | .illegal _ => illegalWord t

/-- `s` with a word presented on `CMD` ahead of everything else the host will present: where step takes its
next command from (30_encoding.md R50; log entry 4). -/
def State.withFetchWord (s : State) (nbits w : Nat) : State :=
  { s with inputs := .word (tableWord nbits w) :: s.inputs }

end Sys2Proof.Machine
end

