-- ==== Sys2Proof/Machine/Trace.lean ====
section
/-!
DEFINITION. The trace syntax and the pseudo-commands of 30_encoding.md R60, and a trace as the host's events.
-/

namespace Sys2Proof.Machine

/-- `ENCODE [d0, ...]` and `ENCODE absent` (30_encoding.md R60). -/
def encodeTrace : Option (List Byte) → List Instr
  | none => [.encAbsent]
  | some b => .encBegin :: (b.map .encPush ++ [.encEnd])

/-- `DECODE "s"` and `DECODE absent` (R60). -/
def decodeTrace : Option (List Byte) → List Instr
  | none => [.decAbsent]
  | some s => .decBegin :: (s.map .decPush ++ [.decEnd])

/-- `CHECKSUM [d0, ...]` and `CHECKSUM absent` (R60). -/
def checksumTrace : Option (List Byte) → List Instr
  | none => [.chkAbsent]
  | some b => .chkBegin :: (b.map .chkPush ++ [.chkEnd])

/-- The events of a host that presents the commands of a trace, one word each (30_encoding.md R51, R60). -/
def traceInputs (t : List Instr) : List Input := t.map fun i => .word (encode i)

/-- A hexadecimal digit, letters in capitals (log entry 12). -/
def hexDigit (n : BitVec 4) : Char :=
  if n.toNat < 10 then Char.ofNat (48 + n.toNat) else Char.ofNat (55 + n.toNat)

/-- A byte as two hexadecimal digits. -/
def hexByte (b : Byte) : String := String.ofList [hexDigit (b.extractLsb' 4 4), hexDigit (b.extractLsb' 0 4)]

/-- A command in trace syntax (30_encoding.md R60): `UNIT.FN`, followed for `PUSH` by its data. -/
def renderCommand : Instr → String
  | .sysRst    => "SYS.RST"
  | .encBegin  => "ENC.BEGIN"
  | .encPush d => "ENC.PUSH 0x" ++ hexByte d
  | .encEnd    => "ENC.END"
  | .encAbsent => "ENC.ABSENT"
  | .decBegin  => "DEC.BEGIN"
  | .decPush d => "DEC.PUSH 0x" ++ hexByte d
  | .decEnd    => "DEC.END"
  | .decAbsent => "DEC.ABSENT"
  | .chkBegin  => "CHK.BEGIN"
  | .chkPush d => "CHK.PUSH 0x" ++ hexByte d
  | .chkEnd    => "CHK.END"
  | .chkAbsent => "CHK.ABSENT"

/-- The name of a status (30_encoding.md R57). -/
def renderCode : TermCode → String
  | .ok          => "OK"
  | .absent      => "ABSENT"
  | .errChar     => "ERR_CHAR"
  | .errLen      => "ERR_LEN"
  | .illegalCmd  => "ILLEGAL_CMD"
  | .badSequence => "BAD_SEQUENCE"
  | .aborted     => "ABORTED"

/-- An item in trace syntax (30_encoding.md R60): `D:xx` or `T:NAME`. -/
def renderItem : Item → String
  | .data d => "D:" ++ hexByte d
  | .term c => "T:" ++ renderCode c

end Sys2Proof.Machine
end

