-- ==== Sys2Proof/Machine/Output.lean ====
section
/-!
DEFINITION. Items as 10-bit words (30_encoding.md R56, R57) and the reading of `OUT` (R58): pieces, their
results, and the provisional items of a frame still open (60_exceptions.md R165).
-/

namespace Sys2Proof.Machine

/-- The 8-bit code of a status (30_encoding.md R57). -/
def TermCode.code : TermCode → Byte
  | .ok          => 0x00
  | .absent      => 0x01
  | .errChar     => 0x02
  | .errLen      => 0x03
  | .illegalCmd  => 0xF0
  | .badSequence => 0xF1
  | .aborted     => 0xFE

/-- The 10-bit item (30_encoding.md R56): `KIND` 0b00 for `DATA`, 0b01 for `TERM`, then the payload. -/
def Item.word : Item → ItemWord
  | .data d => 0b00#2 ++ d
  | .term c => 0b01#2 ++ c.code

/-- The output of one frame, fault or abort: `DATA` payloads, then the `TERM` that ends them (R58). -/
structure Piece where
  data : List Byte
  term : TermCode
deriving DecidableEq, Repr

/-- The items of a piece, in emission order. -/
def Piece.items (p : Piece) : List Item := p.data.map .data ++ [.term p.term]

/-- The result of a piece (30_encoding.md R58): none for a fault or an abort, and every `DATA` item is void
unless the status is `OK`. `ABSENT` gives `Absent` whatever stands before it (log entry 11). -/
def Piece.result (p : Piece) : Option Codec.Result :=
  match p.term with
  | .ok          => some (.present p.data)
  | .absent      => some .absent
  | .errChar     => some (.error .char)
  | .errLen      => some (.error .len)
  | .illegalCmd  => none
  | .badSequence => none
  | .aborted     => none

/-- Cut `OUT` after every `TERM` (30_encoding.md R58): the whole pieces, and the provisional payloads after the
last `TERM`. `pending` holds the payloads read since the last cut. -/
def cutPieces (pending : List Byte) : List Item → List Piece × List Byte
  | [] => ([], pending)
  | .data d :: t => cutPieces (pending ++ [d]) t
  | .term c :: t =>
    let r := cutPieces [] t
    (⟨pending, c⟩ :: r.1, r.2)

/-- The pieces of `OUT` (R58). -/
def State.pieces (s : State) : List Piece := (cutPieces [] s.out).1

/-- The provisional payloads of `OUT` (60_exceptions.md R165). -/
def State.provisional (s : State) : List Byte := (cutPieces [] s.out).2

end Sys2Proof.Machine
end

