-- ==== Sys2Proof/Safety.lean ====
section
/-!
DEFINITION. What claims are stated in: the invariant of 10_state.md R23, the mode table of 44_system.md R152,
and how a run ends (70_reset_and_hazards.md R204).
-/

namespace Sys2Proof.Machine

/-- Every register but `MODE` holds 0 (10_state.md R22, R23). -/
abbrev State.Cleared (s : State) : Prop :=
  s.pos = 0 ∧ s.phase = 0 ∧ s.carry = 0 ∧ s.cnt = 0 ∧ s.err = false ∧ s.h = 0

/-- R16's table for an ENC frame: the width of `CARRY` that is in use, by `PHASE`. -/
abbrev State.EncCarryOk (s : State) : Prop :=
  (s.phase = 0 → s.carry = 0) ∧ (s.phase = 1 → s.carry.toNat < 4) ∧ (s.phase = 2 → s.carry.toNat < 16)

/-- R16's table for a DEC frame, which holds while `ERR = 0`. -/
abbrev State.DecCarryOk (s : State) : Prop :=
  (s.phase = 0 → s.carry = 0) ∧ (s.phase = 2 → s.carry.toNat < 16) ∧ (s.phase = 3 → s.carry.toNat < 4)

/-- R23 in an ENC frame. -/
abbrev State.EncOk (s : State) : Prop :=
  s.err = false ∧ s.h = 0 ∧ s.phase.toNat ≤ 2 ∧ s.EncCarryOk ∧ s.cnt ≠ 3 ∧
    (s.cnt = 0 → s.pos = 0 ∧ s.phase = 0 ∧ s.carry = 0)

/-- R23 in a DEC frame. -/
abbrev State.DecOk (s : State) : Prop :=
  s.h = 0 ∧ s.cnt ≠ 3 ∧ (s.err = false → s.DecCarryOk) ∧
    (s.cnt = 0 → s.pos = 0 ∧ s.phase = 0 ∧ s.carry = 0 ∧ s.err = false) ∧
    (s.cnt = 1 → s.pos = 1 ∧ s.phase = 1) ∧ s.phase.toNat = s.pos.toNat % 4

/-- R23 in a CHK frame. -/
abbrev State.ChkOk (s : State) : Prop :=
  s.pos = 0 ∧ s.phase = 0 ∧ s.carry = 0 ∧ s.cnt = 0 ∧ s.err = false

/-- The invariant of 10_state.md R23, mode by mode. -/
structure State.Inv (s : State) : Prop where
  closed : s.mode = .idle ∨ s.mode = .fault → s.Cleared
  enc    : s.mode = .enc → s.EncOk
  dec    : s.mode = .dec → s.DecOk
  chk    : s.mode = .chk → s.ChkOk

/-- Where no ENC or DEC frame is open, `OUT` is made of whole pieces (70_reset_and_hazards.md R204; a CHK frame
emits nothing before its `END`). -/
abbrev State.OutClosed (s : State) : Prop :=
  s.mode ≠ .enc → s.mode ≠ .dec → s.provisional = []

/-- The unit a frame command belongs to, none for `SYS.RST`. -/
def unitMode : Instr → Option Mode
  | .sysRst => none
  | .encBegin | .encPush _ | .encEnd | .encAbsent => some .enc
  | .decBegin | .decPush _ | .decEnd | .decAbsent => some .dec
  | .chkBegin | .chkPush _ | .chkEnd | .chkAbsent => some .chk

/-- A column of R152's table. -/
inductive Column
  | begin_
  | absent
  | push
  | end_
  | rst
deriving DecidableEq, Repr

/-- The column a command stands in. -/
def column : Instr → Column
  | .sysRst => .rst
  | .encBegin | .decBegin | .chkBegin => .begin_
  | .encAbsent | .decAbsent | .chkAbsent => .absent
  | .encPush _ | .decPush _ | .chkPush _ => .push
  | .encEnd | .decEnd | .chkEnd => .end_

/-- The transition table of 44_system.md R152, for a command of unit `u` in column `c`, before it `m`: `F!` is
`fault`, `=` leaves `fault`. -/
def modeTable (u : Option Mode) (c : Column) (m : Mode) : Mode :=
  match m, c with
  | _, .rst => .idle
  | .fault, _ => .fault
  | .idle, .begin_ => u.getD .fault
  | .idle, .absent => .idle
  | .idle, _ => .fault
  | _, .begin_ => .fault
  | _, .absent => .fault
  | m, .push => if u = some m then m else .fault
  | m, .end_ => if u = some m then .idle else .fault

/-- How a run ends, by its last `MODE` (70_reset_and_hazards.md R204). -/
inductive RunEnd
  | complete
  | incomplete
  | faulted
deriving DecidableEq, Repr

/-- R204's three cases. -/
def State.runEnd (s : State) : RunEnd :=
  match s.mode with
  | .idle => .complete
  | .enc | .dec | .chk => .incomplete
  | .fault => .faulted

/-! The states that statements about a command compare its outcome with, written out field by field. -/

/-- Registers as after reset, in mode `m`, the given items appended to `OUT`. -/
def State.freshIn (s : State) (m : Mode) (items : List Item) : State where
  mode   := m
  pos    := 0
  phase  := 0
  carry  := 0
  cnt    := 0
  err    := false
  h      := 0
  out    := s.out ++ items
  inputs := s.inputs

/-- The command is legal only in `m` (30_encoding.md R52): in FAULT it is ignored (60_exceptions.md R169), in
any other mode it raises `BAD_SEQUENCE` (R167, R168). -/
abbrev LegalOnlyIn (i : Instr) (m : Mode) : Prop :=
  ∀ s : State,
    (s.mode = .fault → exec i s = .next s) ∧
      (s.mode ≠ .fault → s.mode ≠ m → exec i s = .next (s.freshIn .fault [.term .badSequence]))

/-- The command has the given word, and the word is decoded as the command (30_encoding.md R53). -/
abbrev HasWord (i : Instr) (w : Word) : Prop := encode i = w ∧ decode w = .command i

end Sys2Proof.Machine
end

