-- ==== Sys2Proof/WellFormed.lean ====
section
/-!
DEFINITION. What is well formed: the fields of a command word (30_encoding.md R51, R55), written apart from
the decoder, and a trace of commands as a sequence of frames (R52). A single `Instr` needs no check of its
own: its one operand is exactly the 8 bits of the `DATA` field.
-/

namespace Sys2Proof

/-- `UNIT` is not reserved (30_encoding.md R51). -/
def Fields.unitOk (f : Fields) : Bool := decide (f.unit.toNat ≤ 3)

/-- In ENC, DEC and CHK, `FN` is not reserved (R51). -/
def Fields.functionOk (f : Fields) : Bool :=
  decide (f.unit.toNat = 0) || decide (f.fn.toNat ≤ 3)

/-- In SYS, `FN` is RST (R51). -/
def Fields.sysFunctionOk (f : Fields) : Bool :=
  !decide (f.unit.toNat = 0) || decide (f.fn.toNat = 1)

/-- The command is a `PUSH`: a unit other than SYS, `FN = 0x1` (R51). -/
def Fields.isPush (f : Fields) : Bool :=
  !decide (f.unit.toNat = 0) && decide (f.fn.toNat = 1)

/-- `DATA` is `0x00` unless the command is a `PUSH` (R51). -/
def Fields.dataOk (f : Fields) : Bool := f.isPush || decide (f.data.toNat = 0)

/-- All four checks of R55. -/
def Fields.wellFormed (f : Fields) : Bool :=
  f.unitOk && f.functionOk && f.sysFunctionOk && f.dataOk

/-- Frames as 30_encoding.md R52 has them, read from left to right: `open?` is the unit whose frame is open.
`BEGIN` and `ABSENT` need no open frame, `PUSH` and `END` need the frame of their own unit, `SYS.RST` may
stand anywhere and abandons the open frame, and at the end no frame is open. -/
def wellFramedFrom : (open? : Option FrameUnit) → List Instr → Bool
  | u, [] => u == none
  | _, .sysRst :: t => wellFramedFrom none t
  | u, .encBegin :: t => u == none && wellFramedFrom (some .enc) t
  | u, .encPush _ :: t => u == some .enc && wellFramedFrom (some .enc) t
  | u, .encEnd :: t => u == some .enc && wellFramedFrom none t
  | u, .encAbsent :: t => u == none && wellFramedFrom none t
  | u, .decBegin :: t => u == none && wellFramedFrom (some .dec) t
  | u, .decPush _ :: t => u == some .dec && wellFramedFrom (some .dec) t
  | u, .decEnd :: t => u == some .dec && wellFramedFrom none t
  | u, .decAbsent :: t => u == none && wellFramedFrom none t
  | u, .chkBegin :: t => u == none && wellFramedFrom (some .chk) t
  | u, .chkPush _ :: t => u == some .chk && wellFramedFrom (some .chk) t
  | u, .chkEnd :: t => u == some .chk && wellFramedFrom none t
  | u, .chkAbsent :: t => u == none && wellFramedFrom none t

/-- A trace made of whole frames (30_encoding.md R52, 70_reset_and_hazards.md R197). -/
def wellFramed (t : List Instr) : Bool := wellFramedFrom none t

end Sys2Proof
end

