-- ==== Sys2Proof/Certificates/Slice0/Obligations.lean ====
section
/-!
DEFINITION. The statements for the provers, rule by rule of spec/. A command's statement gives its word, where
it is legal and what it does elsewhere, and its whole next state, so that what it leaves alone is said with what
it changes. A few statements say in their docstring that they rest on a choice of the model.
-/

open Sys2Proof Sys2Proof.Machine

/-! ## Reset and the step -/

/-- 10_state.md R24: the table of reset values. That no event is waiting is the model's choice (log entry 4). -/
def Obligations.ResetHoldsSpecValues : Prop :=
  State.reset = ⟨.idle, 0, 0, 0, 0, false, 0, [], []⟩ ∧ State.reset.stat = 0#4

/-- 70_reset_and_hazards.md R190: `RESET` from any state. The event and what it leaves waiting are the model's
choice (log entry 2). -/
def Obligations.ResetInputRestoresResetState : Prop :=
  ∀ (s : State) (rest : List Input), s.inputs = .reset :: rest →
    step s = .next { State.reset with inputs := rest }

/-- 44_system.md R154: the five cases in their order, and totality. -/
def Obligations.StepChecksInOrder : Prop :=
  (∀ (s : State) (w : Word) (rest : List Input), s.inputs = .word w :: rest →
    (w = 0x0100 → step s = execSysRst { s with inputs := rest }) ∧
    (w ≠ 0x0100 → s.mode = .fault → step s = .next { s with inputs := rest }) ∧
    (s.mode ≠ .fault → (∀ r ∈ opcodeRows, ¬r.selects w) →
      step s = .next (State.freshIn { s with inputs := rest } .fault [.term .illegalCmd])) ∧
    (∀ i, s.mode ≠ .fault → decode w = .command i → legalIn i s.mode = false →
      step s = .next (State.freshIn { s with inputs := rest } .fault [.term .badSequence])) ∧
    (∀ i, s.mode ≠ .fault → decode w = .command i → legalIn i s.mode = true →
      step s = exec i { s with inputs := rest })) ∧
  (∀ s : State, ∃ t, step s = .next t) ∧ (∀ (i : Instr) (s : State), ∃ t, exec i s = .next t)

/-- A step whose next event is a command's word is the command's meaning, with the word taken from `CMD`
(20_memory.md R42, R44) and nothing else around it. -/
def Obligations.StepRunsDecodedCommand : Prop :=
  ∀ (s : State) (w : Word) (rest : List Input) (i : Instr), s.inputs = .word w :: rest →
    decode w = .command i → step s = exec i { s with inputs := rest }

/-- Between commands the block holds its state (60_exceptions.md R176); that a step with no event is such a
moment is the model's choice (log entry 3). -/
def Obligations.StepWithoutEventHoldsState : Prop :=
  ∀ s : State, s.inputs = [] → step s = .next s

/-! ## Decoding -/

/-- Decoding and encoding agree in both directions on all 65536 words (30_encoding.md R53). -/
def Obligations.DecodeIsInverseOfEncode : Prop :=
  ∀ (w : Word) (i : Instr), decode w = .command i ↔ w = encode i

/-- 30_encoding.md R53: the map, its disjointness, and that a word is decoded as the command of the row it
selects, with its `DATA` field, and is illegal when it selects none. -/
def Obligations.OpcodeMapDecodes : Prop :=
  opcodeRows.map (fun r => (r.mnemonic, r.pattern, r.mask, legalMode (r.command 0))) =
    [("SYS.RST", 0x0100#16, 0xFFFF#16, none), ("ENC.BEGIN", 0x1000#16, 0xFFFF#16, some .idle),
     ("ENC.PUSH", 0x1100#16, 0xFF00#16, some .enc), ("ENC.END", 0x1200#16, 0xFFFF#16, some .enc),
     ("ENC.ABSENT", 0x1300#16, 0xFFFF#16, some .idle), ("DEC.BEGIN", 0x2000#16, 0xFFFF#16, some .idle),
     ("DEC.PUSH", 0x2100#16, 0xFF00#16, some .dec), ("DEC.END", 0x2200#16, 0xFFFF#16, some .dec),
     ("DEC.ABSENT", 0x2300#16, 0xFFFF#16, some .idle), ("CHK.BEGIN", 0x3000#16, 0xFFFF#16, some .idle),
     ("CHK.PUSH", 0x3100#16, 0xFF00#16, some .chk), ("CHK.END", 0x3200#16, 0xFFFF#16, some .chk),
     ("CHK.ABSENT", 0x3300#16, 0xFFFF#16, some .idle)] ∧
  ∀ w : Word,
    (∀ r ∈ opcodeRows, r.selects w ↔ decode w = .command (r.command (w.setWidth 8))) ∧
    opcodeRows.Pairwise (fun r r' => ¬(r.selects w ∧ r'.selects w)) ∧
    ((∀ r ∈ opcodeRows, ¬r.selects w) ↔ ∃ why, decode w = .illegal why)

/-- 30_encoding.md R55 and 60_exceptions.md R166: exactly the listed words are illegal, and what an illegal word
does in each mode. -/
def Obligations.IllegalWordsRaiseIllegalCmd : Prop :=
  (∀ w : Word, (∃ why, decode w = .illegal why) ↔
    4 ≤ w.toNat / 4096 ∨
    (1 ≤ w.toNat / 4096 ∧ w.toNat / 4096 ≤ 3 ∧ 4 ≤ w.toNat / 256 % 16) ∨
    (w.toNat / 4096 = 0 ∧ w.toNat / 256 % 16 ≠ 1) ∨
    (¬(1 ≤ w.toNat / 4096 ∧ w.toNat / 4096 ≤ 3 ∧ w.toNat / 256 % 16 = 1) ∧ w.toNat % 256 ≠ 0)) ∧
  (∃ why, decode 0x0000 = .illegal why) ∧
  (∀ (s : State) (w : Word) (rest : List Input) (why : Illegal), s.inputs = .word w :: rest →
    decode w = .illegal why →
    (s.mode ≠ .fault → step s = .next (State.freshIn { s with inputs := rest } .fault [.term .illegalCmd])) ∧
    (s.mode = .fault → step s = .next { s with inputs := rest }))

/-- A few words written out from R53's table, one per unit and function. -/
def Obligations.WrittenOutWordsDecode : Prop :=
  decode 0b0000000100000000 = .command .sysRst ∧ decode 0b0001000000000000 = .command .encBegin ∧
  decode 0b0001000101001101 = .command (.encPush 0x4D) ∧ decode 0b0010001000000000 = .command .decEnd ∧
  decode 0b0010000101110111 = .command (.decPush 0x77) ∧ decode 0b0011000111111111 = .command (.chkPush 0xFF) ∧
  decode 0b0011001100000000 = .command .chkAbsent ∧ decode 0b0010000000000001 = .illegal .dataNotZero

/-! ## The ALPHA unit -/

/-- 40_alphabet.md R65 and R67: `ALPHA` holds the codes of the alphabet string in order; its 64 entries are
distinct and are the letters, the digits, `-` and `_`. -/
def Obligations.AlphabetTableContent : Prop :=
  alphabetString = "hF13s_u52WRvIdxVDAKwNg0qEOoBP6YTnQjHyfZbSz7JaMXtiLGlcpr9U8emCk-4" ∧
  alphabetString.toList.map (fun c => BitVec.ofNat 8 c.toNat) = List.ofFn (fun i : Fin 64 => symbolAt (BitVec.ofFin i)) ∧
  (∀ i j : Sym, symbolAt i = symbolAt j → i = j) ∧
  (∀ ch : Byte, (∃ i : Sym, symbolAt i = ch) ↔
    (0x61 ≤ ch.toNat ∧ ch.toNat ≤ 0x7A) ∨ (0x41 ≤ ch.toNat ∧ ch.toNat ≤ 0x5A) ∨
    (0x30 ≤ ch.toNat ∧ ch.toNat ≤ 0x39) ∨ ch = 0x2D ∨ ch = 0x5F)

/-- 40_alphabet.md R68 and 20_memory.md R33: `indexOf` inverts `symbolAt`, and is Invalid exactly where no
symbol has the code; the entry of `INV` in each case. -/
def Obligations.IndexOfInvertsSymbolAt : Prop :=
  ∀ ch : Byte,
    (∀ i : Sym, symbolAt i = ch → indexOf ch = some i ∧ invRom ch = 1#1 ++ i) ∧
    ((∀ i : Sym, symbolAt i ≠ ch) → indexOf ch = none ∧ invRom ch = 0)

/-- 40_alphabet.md R70 and R71, over every position, with the datapath over the 6-bit `POS`. -/
def Obligations.SubstitutionIsModulo64 : Prop :=
  ∀ (c : Nat) (v : Sym),
    (subst c v).toNat = (c + v.toNat) % 64 ∧ substPos (BitVec.ofNat 6 c) v = subst c v ∧
    (unsubst c v).toNat = (v.toNat + 64 - c % 64) % 64 ∧ unsubstPos (BitVec.ofNat 6 c) v = unsubst c v ∧
    subst 0 v = v ∧ (subst c 0).toNat = c % 64 ∧ subst (c + 64) v = subst c v ∧
    unsubst 0 v = v ∧ unsubst (c + 64) v = unsubst c v ∧
    subst 1 63 = 0 ∧ subst 63 63 = 62 ∧ subst 1 22 = 23 ∧ symbolAt 23 = 0x71 ∧
    unsubst 1 0 = 63 ∧ unsubst 63 0 = 1 ∧ indexOf 0x71 = some 23 ∧ unsubst 1 23 = 22

/-- 40_alphabet.md R72: the inverse laws, and the bijection onto the alphabet at each position. -/
def Obligations.SubstitutionInverseLaws : Prop :=
  ∀ c : Nat,
    (∀ i : Sym, indexOf (symbolAt i) = some i) ∧
    (∀ v : Sym, unsubst c (subst c v) = v) ∧ (∀ i : Sym, subst c (unsubst c i) = i) ∧
    (∀ v : Sym, (indexOf (symbolAt (subst c v))).map (unsubst c) = some v) ∧
    (∀ v v' : Sym, symbolAt (subst c v) = symbolAt (subst c v') → v = v') ∧
    (∀ i : Sym, ∃ v : Sym, symbolAt (subst c v) = symbolAt i)

/-! ## encode -/

/-- 20_memory.md R36, 41_encode.md R76 and R77: the raw values of a full group, which are the 24 bits of its
bytes cut in order, of a remainder of two bytes and of one byte; the worked examples. -/
def Obligations.RawValuesOfAGroup : Prop :=
  (∀ b0 b1 b2 : Byte, ∃ r0 r1 r2 r3 : Sym, Codec.raw [b0, b1, b2] = [r0, r1, r2, r3] ∧
    (r0 ++ r1 ++ r2 ++ r3 : BitVec 24) = (b0 ++ b1 ++ b2 : BitVec 24) ∧
    r0.toNat = b0.toNat / 4 ∧ r1.toNat = b0.toNat % 4 * 16 + b1.toNat / 16 ∧
    r2.toNat = b1.toNat % 16 * 4 + b2.toNat / 64 ∧ r3.toNat = b2.toNat % 64) ∧
  (∀ b0 b1 : Byte, ∃ r0 r1 r2 : Sym, Codec.raw [b0, b1] = [r0, r1, r2] ∧ r0.toNat = b0.toNat / 4 ∧
    r1.toNat = b0.toNat % 4 * 16 + b1.toNat / 16 ∧ r2.toNat = b1.toNat % 16 * 4 ∧ r2.toNat % 4 = 0) ∧
  (∀ b0 : Byte, ∃ r0 r1 : Sym, Codec.raw [b0] = [r0, r1] ∧ r0.toNat = b0.toNat / 4 ∧
    r1.toNat = b0.toNat % 4 * 16 ∧ r1.toNat % 16 = 0) ∧
  Codec.raw [0x00, 0x00, 0x00] = [0, 0, 0, 0] ∧ Codec.raw [0xFF, 0xFF, 0xFF] = [63, 63, 63, 63] ∧
  Codec.raw [0x4D, 0x61, 0x6E] = [19, 22, 5, 46] ∧
  Codec.raw [0x4D, 0x61] = [19, 22, 4] ∧ Codec.raw [0x4D] = [19, 16] ∧ Codec.raw [0xFF] = [63, 48] ∧
  Codec.raw [0xFF, 0xFF] = [63, 63, 60]

/-- 41_encode.md R75, R78 and R79: the three cases of `encode`, the symbol at every position, and the raw values
group by group with the remainder at the end. -/
def Obligations.EncodeSubstitutesEveryRawValue : Prop :=
  Codec.encode none = [] ∧ Codec.encode (some []) = [symbolAt 0] ∧ symbolAt 0 = 0x68 ∧
  ∀ b : List Byte, b ≠ [] →
    (∀ c : Nat, (Codec.encode (some b))[c]? = ((Codec.raw b)[c]?).map (fun v => symbolAt (subst c v))) ∧
    (∀ g : Nat, g < b.length / 3 →
      ((Codec.raw b).drop (4 * g)).take 4 = Codec.raw ((b.drop (3 * g)).take 3)) ∧
    (Codec.raw b).drop (4 * (b.length / 3)) = Codec.raw (b.drop (3 * (b.length / 3)))

/-- 41_encode.md R80: the length law, with the two equal forms, and the lengths it does not cover. -/
def Obligations.EncodeLengthLaw : Prop :=
  (∀ b : List Byte, 1 ≤ b.length →
    (Codec.encode (some b)).length = (b.length * 4 - 1) / 3 + 1 ∧
    (Codec.encode (some b)).length = (b.length * 8 + 5) / 6 ∧
    (Codec.encode (some b)).length = (b.length * 4 + 2) / 3) ∧
  (Codec.encode (some [])).length = 1 ∧ (Codec.encode none).length = 0

/-- 41_encode.md R89, in function terms: what is emitted for a beginning of the input is emitted for the whole. -/
def Obligations.EncodeStreamsByPrefix : Prop :=
  ∀ b b' : List Byte, b ≠ [] →
    (Codec.encode (some b)).take (b.length + b.length / 3) <+: Codec.encode (some (b ++ b')) ∧
    (Codec.encode (some b)).take (b.length + b.length / 3) =
      if b.length % 3 = 0 then Codec.encode (some b) else (Codec.encode (some b)).dropLast

/-- 70_reset_and_hazards.md R196: an encoding may be cut at a position that is a multiple of 64, and in general
nowhere else. -/
def Obligations.EncodeRestartsEverySixtyFour : Prop :=
  (∀ b b' : List Byte, b ≠ [] → b' ≠ [] → b.length % 48 = 0 →
    Codec.encode (some (b ++ b')) = Codec.encode (some b) ++ Codec.encode (some b')) ∧
  Codec.encode (some [0, 0, 0, 0]) ≠ Codec.encode (some [0, 0, 0]) ++ Codec.encode (some [0])

/-! ## decode -/

/-- 42_decode.md R107 and R106: the bytes of a full group, which are the 24 bits of its raw values, and of the two
remainders, whose dropped bits do not matter; the worked examples. -/
def Obligations.BytesOfAGroup : Prop :=
  (∀ r0 r1 r2 r3 : Sym, ∃ b0 b1 b2 : Byte, Codec.bytesOf [r0, r1, r2, r3] = [b0, b1, b2] ∧
    (b0 ++ b1 ++ b2 : BitVec 24) = (r0 ++ r1 ++ r2 ++ r3 : BitVec 24) ∧
    b0.toNat = r0.toNat * 4 + r1.toNat / 16 ∧ b1.toNat = r1.toNat % 16 * 16 + r2.toNat / 4 ∧
    b2.toNat = r2.toNat % 4 * 64 + r3.toNat) ∧
  (∀ r0 r1 r2 : Sym, ∃ b0 b1 : Byte, Codec.bytesOf [r0, r1, r2] = [b0, b1] ∧
    b0.toNat = r0.toNat * 4 + r1.toNat / 16 ∧ b1.toNat = r1.toNat % 16 * 16 + r2.toNat / 4) ∧
  (∀ r0 r1 : Sym, ∃ b0 : Byte, Codec.bytesOf [r0, r1] = [b0] ∧ b0.toNat = r0.toNat * 4 + r1.toNat / 16) ∧
  (∀ r0 r1 r2 : Sym, Codec.bytesOf [r0, r1, r2] = Codec.bytesOf [r0, r1, r2 &&& 0b111100]) ∧
  (∀ r0 r1 : Sym, Codec.bytesOf [r0, r1] = Codec.bytesOf [r0, r1 &&& 0b110000]) ∧
  Codec.bytesOf [0, 0, 0, 0] = [0x00, 0x00, 0x00] ∧ Codec.bytesOf [63, 63, 63, 63] = [0xFF, 0xFF, 0xFF] ∧
  Codec.bytesOf [19, 22, 5, 46] = [0x4D, 0x61, 0x6E] ∧ Codec.bytesOf [0, 63, 62, 61] = [0x03, 0xFF, 0xBD] ∧
  Codec.decode (some [0x77, 0x71, 0x75]) = .present [0x4D, 0x61] ∧ Codec.decode (some [0x77, 0x41]) = .present [0x4D]

/-- 42_decode.md R108: the bytes of a sequence of raw values, group by group, with the remainder at the end. -/
def Obligations.BytesAreBuiltByGroups : Prop :=
  ∀ r : List Sym, 2 ≤ r.length → r.length % 4 ≠ 1 →
    (∀ g : Nat, g < r.length / 4 →
      ((Codec.bytesOf r).drop (3 * g)).take 3 = Codec.bytesOf ((r.drop (4 * g)).take 4)) ∧
    (Codec.bytesOf r).drop (3 * (r.length / 4)) = Codec.bytesOf (r.drop (4 * (r.length / 4)))

/-- 42_decode.md R100, with R101, R104 and R105: the cases of `decode`, and where it succeeds the raw value at
every position. -/
def Obligations.DecodeCases : Prop :=
  Codec.decode none = .absent ∧ Codec.decode (some []) = .absent ∧
  (∀ ch : Byte, Codec.decode (some [ch]) = .present []) ∧
  ∀ s : List Byte, 2 ≤ s.length →
    ((∃ ch ∈ s, indexOf ch = none) → Codec.decode (some s) = .error .char) ∧
    ((∀ ch ∈ s, indexOf ch ≠ none) → s.length % 4 = 1 → Codec.decode (some s) = .error .len) ∧
    ((∀ ch ∈ s, indexOf ch ≠ none) → s.length % 4 ≠ 1 →
      ∃ r : List Sym, r.length = s.length ∧ Codec.decode (some s) = .present (Codec.bytesOf r) ∧
        ∀ (c : Nat) (ch : Byte), s[c]? = some ch → r[c]? = (indexOf ch).map (unsubst c))

/-- 42_decode.md R109: the length of a decoded result. -/
def Obligations.DecodeLengthLaw : Prop :=
  ∀ s : List Byte, 2 ≤ s.length → s.length % 4 ≠ 1 → (∀ ch ∈ s, indexOf ch ≠ none) →
    ∃ b : List Byte, Codec.decode (some s) = .present b ∧ b.length = (s.length - 1) * 3 / 4 + 1

/-- 42_decode.md R118: decode is the left inverse of encode. -/
def Obligations.DecodeOfEncodeIsIdentity : Prop :=
  (∀ b : List Byte, Codec.decode (some (Codec.encode (some b))) = .present b) ∧
  Codec.decode (some (Codec.encode none)) = .absent

/-- 42_decode.md R110: strings no input encodes to are accepted, with the two examples, so decode is not
injective and encoding a decoded string need not give it back. -/
def Obligations.DecodeAcceptsNonCanonical : Prop :=
  Codec.decode (some [0x77, 0x6E]) = .present [0x4D] ∧ Codec.decode (some [0x77, 0x41]) = .present [0x4D] ∧
  Codec.decode (some [0x77, 0x71, 0x32]) = .present [0x4D, 0x61] ∧
  Codec.decode (some [0x77, 0x71, 0x75]) = .present [0x4D, 0x61] ∧
  Codec.encode (some [0x4D]) ≠ [0x77, 0x6E] ∧
  ∀ ch : Byte, ch ≠ symbolAt 0 → Codec.decode (some [ch]) = .present [] ∧ ∀ b, Codec.encode (some b) ≠ [ch]

/-! ## checksumFast -/

/-- 43_checksum.md R131: one hash step, its other form, the corner cases, and the datapath of `CHK.PUSH`. -/
def Obligations.HashStepWrapsAt32Bits : Prop :=
  (∀ (h : Hash) (b : Byte), (Codec.fold h b).toNat = (31 * h.toNat + b.toNat) % 2 ^ 32 ∧
    Codec.fold h b = (h <<< 5) - h + b.setWidth 32 ∧ hashStep h b = Codec.fold h b) ∧
  Codec.fold 0 0 = 0 ∧ Codec.fold 0 0xFF = 0x000000FF ∧ Codec.fold 0xFFFFFFFF 0xFF = 0x000000E0 ∧
  Codec.fold 0x08421084 4 = 0 ∧ Codec.fold 0x00000061 0x62 = 0x00000C21

/-- 43_checksum.md R132: the content fold, its closed form, leading zeros, and that absent content and empty
content have one checksum, whatever the salt. -/
def Obligations.ContentFoldClosedForm : Prop :=
  Codec.foldAll 0 [] = 0 ∧
  (∀ (b : List Byte) (x : Byte), Codec.foldAll 0 (b ++ [x]) = Codec.fold (Codec.foldAll 0 b) x) ∧
  (∀ b : List Byte, (Codec.foldAll 0 b).toNat =
    (∑ i : Fin b.length, (b.get i).toNat * 31 ^ (b.length - 1 - i.val)) % 2 ^ 32) ∧
  (∀ (n : Nat) (b : List Byte), Codec.foldAll 0 (List.replicate n 0 ++ b) = Codec.foldAll 0 b) ∧
  (∀ salt : List Byte, Codec.checksumFast salt none = Codec.checksumFast salt (some [])) ∧
  Codec.foldAll 0 [0x61, 0x62, 0x63] = 0x00017862

/-- 43_checksum.md R134: the four bytes of the hash, most significant first. -/
def Obligations.HashIsCutBigEndian : Prop :=
  (∀ h : Hash, (Codec.cut h).map BitVec.toNat =
    [h.toNat / 2 ^ 24 % 256, h.toNat / 2 ^ 16 % 256, h.toNat / 2 ^ 8 % 256, h.toNat % 256]) ∧
  Codec.cut 0x12345678 = [0x12, 0x34, 0x56, 0x78]

/-- 43_checksum.md R130, R133, R135: for every salt, a checksum is six symbols of the alphabet that decode to the
four bytes of the hash of the content followed by the salt. -/
def Obligations.ChecksumDecodesToItsHash : Prop :=
  ∀ (salt : List Byte) (content : Option (List Byte)),
    (Codec.checksumFast salt content).length = 6 ∧
    (∀ ch ∈ Codec.checksumFast salt content, ∃ i : Sym, symbolAt i = ch) ∧
    Codec.decode (some (Codec.checksumFast salt content)) =
      .present (Codec.cut (Codec.foldAll 0 (content.getD [] ++ salt)))

/-! ## The commands -/

/-- 44_system.md R150. -/
def Obligations.SysRstAbandonsAndClears : Prop :=
  HasWord .sysRst 0x0100 ∧
  (∀ s : State, s.mode = .enc ∨ s.mode = .dec ∨ s.mode = .chk →
    exec .sysRst s = .next (s.freshIn .idle [.term .aborted])) ∧
  (∀ s : State, s.mode = .idle ∨ s.mode = .fault → exec .sysRst s = .next (s.freshIn .idle [])) ∧
  (∀ s : State, s.mode = .idle → s.Cleared → exec .sysRst s = .next s) ∧
  (∀ s t : State, exec .sysRst s = .next t → exec .sysRst t = .next t)

/-- 41_encode.md R82. -/
def Obligations.EncBeginOpensFrame : Prop :=
  HasWord .encBegin 0x1000 ∧ LegalOnlyIn .encBegin .idle ∧
  (∀ s : State, s.mode = .idle → exec .encBegin s = .next (s.freshIn .enc [])) ∧
  exec .encBegin State.reset = .next { State.reset with mode := .enc }

/-- 41_encode.md R83 with the helper R86. PHASE is 0, 1 or 2 in every ENC frame a run reaches (R23); the
unreachable 3 is left out (93_implementation_defined.md V9, log entry 5). -/
def Obligations.EncPushEmitsSymbols : Prop :=
  (∀ b : Byte, HasWord (.encPush b) (0x1100 ||| b.setWidth 16)) ∧ (∀ b : Byte, LegalOnlyIn (.encPush b) .enc) ∧
  (∀ (b : Byte) (s : State), s.mode = .enc → s.phase = 0 →
    exec (.encPush b) s = .next { s with
      out := s.out ++ [.data (symbolAt (s.pos + (b >>> 2).setWidth 6))]
      pos := s.pos + 1
      carry := (b &&& 3).setWidth 6
      phase := 1
      cnt := BitVec.ofNat 2 (min 2 (s.cnt.toNat + 1)) }) ∧
  (∀ (b : Byte) (s : State), s.mode = .enc → s.phase = 1 →
    exec (.encPush b) s = .next { s with
      out := s.out ++ [.data (symbolAt (s.pos + (((s.carry &&& 3) <<< 4) ||| (b >>> 4).setWidth 6)))]
      pos := s.pos + 1
      carry := (b &&& 15).setWidth 6
      phase := 2
      cnt := BitVec.ofNat 2 (min 2 (s.cnt.toNat + 1)) }) ∧
  (∀ (b : Byte) (s : State), s.mode = .enc → s.phase = 2 →
    exec (.encPush b) s = .next { s with
      out := s.out ++ [.data (symbolAt (s.pos + (((s.carry &&& 15) <<< 2) ||| (b >>> 6).setWidth 6))),
        .data (symbolAt (s.pos + 1 + (b &&& 63).setWidth 6))]
      pos := s.pos + 2
      carry := 0
      phase := 0
      cnt := BitVec.ofNat 2 (min 2 (s.cnt.toNat + 1)) }) ∧
  exec (.encPush 0x4D) { State.reset with mode := .enc } =
    .next { State.reset with mode := .enc, pos := 1, phase := 1, carry := 1, cnt := 1, out := [.data 0x77] }

/-- 41_encode.md R84. The unreachable PHASE = 3 is left out (log entry 5). -/
def Obligations.EncEndFlushesRemainder : Prop :=
  HasWord .encEnd 0x1200 ∧ LegalOnlyIn .encEnd .enc ∧
  (∀ s : State, s.mode = .enc → s.cnt = 0 →
    exec .encEnd s = .next (s.freshIn .idle [.data (symbolAt 0), .term .ok])) ∧
  (∀ s : State, s.mode = .enc → s.cnt ≠ 0 → s.phase = 0 → exec .encEnd s = .next (s.freshIn .idle [.term .ok])) ∧
  (∀ s : State, s.mode = .enc → s.cnt ≠ 0 → s.phase = 1 →
    exec .encEnd s = .next (s.freshIn .idle [.data (symbolAt (s.pos + ((s.carry &&& 3) <<< 4))), .term .ok])) ∧
  (∀ s : State, s.mode = .enc → s.cnt ≠ 0 → s.phase = 2 →
    exec .encEnd s = .next (s.freshIn .idle [.data (symbolAt (s.pos + ((s.carry &&& 15) <<< 2))), .term .ok])) ∧
  exec .encEnd { State.reset with mode := .enc, pos := 1, phase := 1, carry := 1, cnt := 1, out := [.data 0x77] } =
    .next { State.reset with out := [.data 0x77, .data 0x41, .term .ok] }

/-- 41_encode.md R85. -/
def Obligations.EncAbsentReportsOk : Prop :=
  HasWord .encAbsent 0x1300 ∧ LegalOnlyIn .encAbsent .idle ∧
  (∀ s : State, s.mode = .idle → exec .encAbsent s = .next (s.freshIn .idle [.term .ok])) ∧
  exec .encAbsent State.reset = .next { State.reset with out := [.term .ok] }

/-- 42_decode.md R111. -/
def Obligations.DecBeginOpensFrame : Prop :=
  HasWord .decBegin 0x2000 ∧ LegalOnlyIn .decBegin .idle ∧
  (∀ s : State, s.mode = .idle → exec .decBegin s = .next (s.freshIn .dec [])) ∧
  exec .decBegin State.reset = .next { State.reset with mode := .dec }

/-- 42_decode.md R112: an accepted character in each phase, a rejected one, and the worked example. -/
def Obligations.DecPushRebuildsBytes : Prop :=
  (∀ ch : Byte, HasWord (.decPush ch) (0x2100 ||| ch.setWidth 16)) ∧ (∀ ch : Byte, LegalOnlyIn (.decPush ch) .dec) ∧
  (∀ (ch : Byte) (s : State), s.mode = .dec → s.err = true ∨ indexOf ch = none →
    exec (.decPush ch) s = .next { s with
      err := true, pos := s.pos + 1, phase := s.phase + 1, cnt := BitVec.ofNat 2 (min 2 (s.cnt.toNat + 1)) }) ∧
  (∀ (ch : Byte) (i : Sym) (s : State), s.mode = .dec → s.err = false → indexOf ch = some i → s.phase = 0 →
    exec (.decPush ch) s = .next { s with
      carry := i - s.pos
      pos := s.pos + 1, phase := 1, cnt := BitVec.ofNat 2 (min 2 (s.cnt.toNat + 1)) }) ∧
  (∀ (ch : Byte) (i : Sym) (s : State), s.mode = .dec → s.err = false → indexOf ch = some i → s.phase = 1 →
    exec (.decPush ch) s = .next { s with
      out := s.out ++ [.data ((s.carry.setWidth 8 <<< 2) ||| ((i - s.pos) >>> 4).setWidth 8)]
      carry := (i - s.pos) &&& 15
      pos := s.pos + 1, phase := 2, cnt := BitVec.ofNat 2 (min 2 (s.cnt.toNat + 1)) }) ∧
  (∀ (ch : Byte) (i : Sym) (s : State), s.mode = .dec → s.err = false → indexOf ch = some i → s.phase = 2 →
    exec (.decPush ch) s = .next { s with
      out := s.out ++ [.data (((s.carry &&& 15).setWidth 8 <<< 4) ||| ((i - s.pos) >>> 2).setWidth 8)]
      carry := (i - s.pos) &&& 3
      pos := s.pos + 1, phase := 3, cnt := BitVec.ofNat 2 (min 2 (s.cnt.toNat + 1)) }) ∧
  (∀ (ch : Byte) (i : Sym) (s : State), s.mode = .dec → s.err = false → indexOf ch = some i → s.phase = 3 →
    exec (.decPush ch) s = .next { s with
      out := s.out ++ [.data (((s.carry &&& 3).setWidth 8 <<< 6) ||| (i - s.pos).setWidth 8)]
      carry := 0
      pos := s.pos + 1, phase := 0, cnt := BitVec.ofNat 2 (min 2 (s.cnt.toNat + 1)) }) ∧
  exec (.decPush 0x77) { State.reset with mode := .dec } =
    .next { State.reset with mode := .dec, carry := 19, pos := 1, phase := 1, cnt := 1 } ∧
  exec (.decPush 0x41) { State.reset with mode := .dec, carry := 19, pos := 1, phase := 1, cnt := 1 } =
    .next { State.reset with mode := .dec, carry := 0, pos := 2, phase := 2, cnt := 2, out := [.data 0x4D] }

/-- 42_decode.md R115 with 60_exceptions.md R164 and R171: the status by its cases, in order, then the clear and
IDLE, an error or not. -/
def Obligations.DecEndReportsStatus : Prop :=
  HasWord .decEnd 0x2200 ∧ LegalOnlyIn .decEnd .dec ∧
  (∀ s : State, s.mode = .dec → s.cnt = 0 → exec .decEnd s = .next (s.freshIn .idle [.term .absent])) ∧
  (∀ s : State, s.mode = .dec → s.cnt = 1 → exec .decEnd s = .next (s.freshIn .idle [.term .ok])) ∧
  (∀ s : State, s.mode = .dec → s.cnt = 2 → s.err = true →
    exec .decEnd s = .next (s.freshIn .idle [.term .errChar])) ∧
  (∀ s : State, s.mode = .dec → s.cnt = 2 → s.err = false → s.phase = 1 →
    exec .decEnd s = .next (s.freshIn .idle [.term .errLen])) ∧
  (∀ s : State, s.mode = .dec → s.cnt = 2 → s.err = false → s.phase ≠ 1 →
    exec .decEnd s = .next (s.freshIn .idle [.term .ok])) ∧
  exec .decEnd { State.reset with mode := .dec, pos := 2, phase := 2, cnt := 2, out := [.data 0x4D] } =
    .next { State.reset with out := [.data 0x4D, .term .ok] }

/-- 42_decode.md R116, and that it emits what the empty frame emits. -/
def Obligations.DecAbsentReportsAbsent : Prop :=
  HasWord .decAbsent 0x2300 ∧ LegalOnlyIn .decAbsent .idle ∧
  (∀ s : State, s.mode = .idle → exec .decAbsent s = .next (s.freshIn .idle [.term .absent])) ∧
  (∀ s t : State, s.mode = .idle → exec .decBegin s = .next t → exec .decEnd t = exec .decAbsent s) ∧
  exec .decAbsent State.reset = .next { State.reset with out := [.term .absent] }

/-- 43_checksum.md R137. -/
def Obligations.ChkBeginOpensFrame : Prop :=
  HasWord .chkBegin 0x3000 ∧ LegalOnlyIn .chkBegin .idle ∧
  (∀ s : State, s.mode = .idle → exec .chkBegin s = .next (s.freshIn .chk [])) ∧
  exec .chkBegin State.reset = .next { State.reset with mode := .chk }

/-- 43_checksum.md R138: only `H` changes. -/
def Obligations.ChkPushFoldsByte : Prop :=
  (∀ b : Byte, HasWord (.chkPush b) (0x3100 ||| b.setWidth 16)) ∧ (∀ b : Byte, LegalOnlyIn (.chkPush b) .chk) ∧
  (∀ (b : Byte) (s : State), s.mode = .chk →
    exec (.chkPush b) s = .next { s with h := BitVec.ofNat 32 ((31 * s.h.toNat + b.toNat) % 2 ^ 32) }) ∧
  exec (.chkPush 0x63) { State.reset with mode := .chk, h := 0x00000C21 } =
    .next { State.reset with mode := .chk, h := 0x00017862 }

/-- 43_checksum.md R139 with the helper R136, for the machine's salt, and the effect's example for the
illustrative empty salt. -/
def Obligations.ChkEndRendersSaltedHash : Prop :=
  HasWord .chkEnd 0x3200 ∧ LegalOnlyIn .chkEnd .chk ∧
  (∀ s : State, s.mode = .chk → exec .chkEnd s = .next (s.freshIn .idle
    ((Codec.encode (some (Codec.cut (Config.salt.foldl Codec.fold s.h)))).map .data ++ [.term .ok]))) ∧
  (∀ g : Hash, (Codec.encode (some (Codec.cut g))).length = 6) ∧
  (∀ s : State, s.mode = .chk → exec .chkEnd s = .next (chkEnd Config.salt s)) ∧
  chkEnd [] { State.reset with mode := .chk, h := 0x00017862 } =
    { State.reset with out := [.data 0x68, .data 0x46, .data 0x35, .data 0x6D, .data 0x50, .data 0x66, .term .ok] }

/-- 43_checksum.md R140, and that it emits what the empty frame emits. -/
def Obligations.ChkAbsentRendersSaltAlone : Prop :=
  HasWord .chkAbsent 0x3300 ∧ LegalOnlyIn .chkAbsent .idle ∧
  (∀ s : State, s.mode = .idle → exec .chkAbsent s = .next (s.freshIn .idle
    ((Codec.encode (some (Codec.cut (Config.salt.foldl Codec.fold 0)))).map .data ++ [.term .ok]))) ∧
  (∀ s t : State, s.mode = .idle → exec .chkBegin s = .next t → exec .chkEnd t = exec .chkAbsent s) ∧
  (∀ s : State, s.mode = .idle → exec .chkAbsent s = .next (chkAbsent Config.salt s)) ∧
  chkAbsent [] State.reset =
    { State.reset with out := [.data 0x68, .data 0x46, .data 0x31, .data 0x33, .data 0x73, .data 0x5F, .term .ok] }

/-! ## Whole-machine rules -/

/-- 44_system.md R152: the complete transition relation of `MODE`, its illegal-word column too. -/
def Obligations.ModeTransitionTable : Prop :=
  (∀ (i : Instr) (s : State), ∃ t, exec i s = .next t ∧ t.mode = modeTable (unitMode i) (column i) s.mode) ∧
  (∀ (s : State) (w : Word) (rest : List Input) (why : Illegal), s.inputs = .word w :: rest →
    decode w = .illegal why → ∃ t, step s = .next t ∧ t.mode = .fault)

/-- 60_exceptions.md R167 and R168: a legal word in a mode that does not allow it has exactly the fault's
effects. -/
def Obligations.MisplacedCommandRaisesBadSequence : Prop :=
  ∀ (i : Instr) (s : State), s.mode ≠ .fault →
    (column i = .begin_ ∨ column i = .absent) ∧ s.mode ≠ .idle ∨
    (column i = .push ∨ column i = .end_) ∧ unitMode i ≠ some s.mode →
    exec i s = .next { s with
      out := s.out ++ [.term .badSequence]
      pos := 0, phase := 0, carry := 0, cnt := 0, err := false, h := 0
      mode := .fault }

/-- 60_exceptions.md R169: in FAULT every word but `SYS.RST` is ignored, `STAT[2:0]` reads 7, and nothing but
`SYS.RST` or `RESET` leaves FAULT. -/
def Obligations.FaultModeIsSticky : Prop :=
  ∀ s : State, s.mode = .fault →
    (∀ (w : Word) (rest : List Input), s.inputs = .word w :: rest → w ≠ 0x0100 →
      step s = .next { s with inputs := rest }) ∧
    s.stat.setWidth 3 = 7#3 ∧
    (∀ t : State, step s = .next t → t.mode ≠ .fault →
      ∃ rest, s.inputs = .word 0x0100 :: rest ∨ s.inputs = .reset :: rest)

/-- 60_exceptions.md R171 and 10_state.md R21: `OUT` only grows, and one command adds some `DATA` items and then
at most one `TERM`. -/
def Obligations.OneCommandAddsAtMostOneTerm : Prop :=
  (∀ (i : Instr) (s t : State), exec i s = .next t →
    ∃ (ds : List Byte) (ts : List TermCode), t.out = s.out ++ ds.map .data ++ ts.map .term ∧ ts.length ≤ 1) ∧
  (∀ s t : State, step s = .next t → (∃ rest, s.inputs = .reset :: rest) ∨ s.out <+: t.out)

/-- 60_exceptions.md R177: an ENC or CHK command that is legal in the current mode raises nothing. -/
def Obligations.EncAndChkNeverFail : Prop :=
  ∀ (i : Instr) (s : State), unitMode i = some .enc ∨ unitMode i = some .chk → s.mode ≠ .fault →
    legalIn i s.mode = true →
    ∃ (t : State) (ds : List Byte) (ts : List TermCode), exec i s = .next t ∧ t.mode ≠ .fault ∧
      t.out = s.out ++ ds.map .data ++ ts.map .term ∧ ∀ c ∈ ts, c = .ok

/-- 10_state.md R22: the clearing commands, a protocol fault and reset among them. -/
def Obligations.ClearingCommandsClear : Prop :=
  (∀ (i : Instr) (s t : State), legalIn i s.mode = true → column i ≠ .push → exec i s = .next t →
    t.pos = 0 ∧ t.phase = 0 ∧ t.carry = 0 ∧ t.cnt = 0 ∧ t.err = false ∧ t.h = 0) ∧
  (∀ s t : State, step s = .next t → s.mode ≠ .fault → t.mode = .fault → t.Cleared) ∧
  (∀ (s t : State) (rest : List Input), s.inputs = .reset :: rest → step s = .next t → t.Cleared)

/-- The frame of a `PUSH` in its own unit (41_encode.md R83, 42_decode.md R112, 43_checksum.md R138), and that no
command touches the host's events. -/
def Obligations.PushLeavesTheRestAlone : Prop :=
  (∀ (b : Byte) (s t : State), s.mode = .enc → exec (.encPush b) s = .next t →
    t.mode = s.mode ∧ t.err = s.err ∧ t.h = s.h) ∧
  (∀ (ch : Byte) (s t : State), s.mode = .dec → exec (.decPush ch) s = .next t →
    t.mode = s.mode ∧ t.h = s.h ∧ (s.err = true → t.err = true ∧ t.carry = s.carry ∧ t.out = s.out)) ∧
  (∀ (b : Byte) (s t : State), s.mode = .chk → exec (.chkPush b) s = .next t → t = { s with h := t.h }) ∧
  (∀ (i : Instr) (s t : State), exec i s = .next t → t.inputs = s.inputs)

/-- Nothing a command does depends on what stands in `OUT` (10_state.md R10: the appended items are the step's
output; R25: no hidden state). -/
def Obligations.CommandsDoNotReadOut : Prop :=
  ∀ (i : Instr) (s t : State) (o : List Item), exec i s = .next t →
    ∃ items : List Item, t.out = s.out ++ items ∧
      exec i { s with out := o } = .next { t with out := o ++ items }

/-- 10_state.md R20 and 30_encoding.md R56, with the values of R13 and R57: the status wires and the item words. -/
def Obligations.PortEncodings : Prop :=
  (∀ s : State, s.stat.getLsbD 3 = s.err ∧ s.stat.extractLsb' 0 3 = s.mode.code) ∧
  [Mode.idle, .enc, .dec, .chk, .fault].map Mode.code = [0#3, 1#3, 2#3, 3#3, 7#3] ∧
  (∀ d : Byte, (Item.data d).word = d.setWidth 10) ∧
  [TermCode.ok, .absent, .errChar, .errLen, .illegalCmd, .badSequence, .aborted].map (fun c => (Item.term c).word) =
    [0x100#10, 0x101#10, 0x102#10, 0x103#10, 0x1F0#10, 0x1F1#10, 0x1FE#10]

/-- The reading of 30_encoding.md R58: the cut of `OUT` into pieces is the only one there is, and the result of a
piece. That a piece ending in ABSENT has the result Absent also where DATA items stand before it is the model's
choice (log entry 11): R57 gives such a frame no DATA items. -/
def Obligations.OutIsReadPieceByPiece : Prop :=
  (∀ s : State, s.pieces.flatMap Piece.items ++ s.provisional.map .data = s.out) ∧
  (∀ (s : State) (ps : List Piece) (pending : List Byte),
    ps.flatMap Piece.items ++ pending.map .data = s.out → s.pieces = ps ∧ s.provisional = pending) ∧
  (∀ ds : List Byte,
    Piece.result ⟨ds, .ok⟩ = some (.present ds) ∧ Piece.result ⟨ds, .absent⟩ = some .absent ∧
    Piece.result ⟨ds, .errChar⟩ = some (.error .char) ∧ Piece.result ⟨ds, .errLen⟩ = some (.error .len) ∧
    Piece.result ⟨ds, .illegalCmd⟩ = none ∧ Piece.result ⟨ds, .badSequence⟩ = none ∧
    Piece.result ⟨ds, .aborted⟩ = none)

/-- The invariant of 10_state.md R23 holds after reset. -/
def Obligations.InvariantHoldsAtReset : Prop := State.reset.Inv

/-- Every step keeps the invariant of 10_state.md R23. -/
def Obligations.StepKeepsInvariant : Prop :=
  ∀ s t : State, s.Inv → step s = .next t → t.Inv

/-- 70_reset_and_hazards.md R204: every step keeps `OUT` made of whole pieces where no frame is open. -/
def Obligations.StepKeepsOutClosed : Prop :=
  State.reset.OutClosed ∧ ∀ s t : State, s.OutClosed → step s = .next t → t.OutClosed

/-! ## Frames -/

/-- 10_state.md R14 to R17 and 41_encode.md R87, R89 inside an ENC frame: what the registers hold and what has
been emitted after any number of pushes. -/
def Obligations.EncFrameRegisters : Prop :=
  ∀ (s : State) (b : List Byte) (rest : List Input), s.mode = .idle →
    s.inputs = traceInputs (.encBegin :: b.map .encPush) ++ rest →
    ∃ t : State, Sys2Proof.core.run (b.length + 1) s = .next t ∧ t.mode = .enc ∧ t.inputs = rest ∧
      t.out = s.out ++ ((Codec.encode (some b)).take (b.length + b.length / 3)).map .data ∧
      t.pos.toNat = (b.length + b.length / 3) % 64 ∧ t.phase.toNat = b.length % 3 ∧
      t.cnt.toNat = min 2 b.length ∧ t.err = false ∧ t.h = 0 ∧
      (b.length % 3 = 0 → t.carry = 0) ∧
      (∀ x : Byte, b.getLast? = some x →
        (b.length % 3 = 1 → t.carry.toNat = x.toNat % 4) ∧ (b.length % 3 = 2 → t.carry.toNat = x.toNat % 16))

/-- 10_state.md R14 to R18 and 42_decode.md R117 inside a DEC frame: what the registers hold, and how many bytes
have been emitted, after any number of pushes. -/
def Obligations.DecFrameRegisters : Prop :=
  ∀ (s : State) (str : List Byte) (rest : List Input), s.mode = .idle →
    s.inputs = traceInputs (.decBegin :: str.map .decPush) ++ rest →
    ∃ (t : State) (ds : List Byte), Sys2Proof.core.run (str.length + 1) s = .next t ∧ t.mode = .dec ∧
      t.inputs = rest ∧ t.out = s.out ++ ds.map .data ∧ t.h = 0 ∧
      t.pos.toNat = str.length % 64 ∧ t.phase.toNat = str.length % 4 ∧ t.cnt.toNat = min 2 str.length ∧
      (t.err = true ↔ ∃ ch ∈ str, indexOf ch = none) ∧
      ((∀ ch ∈ str, indexOf ch ≠ none) → ds.length = str.length - (str.length + 3) / 4) ∧
      (∀ (p : Nat) (ch : Byte), str[p]? = some ch → indexOf ch = none →
        (∀ ch' ∈ str.take p, indexOf ch' ≠ none) → ds.length = p - (p + 3) / 4) ∧
      (∀ r : List Sym, Codec.rawOf 0 str = some r →
        (str.length % 4 = 0 → t.carry = 0) ∧
        (∀ v : Sym, r.getLast? = some v →
          (str.length % 4 = 1 → t.carry = v) ∧ (str.length % 4 = 2 → t.carry.toNat = v.toNat % 16) ∧
          (str.length % 4 = 3 → t.carry.toNat = v.toNat % 4)))

/-- 41_encode.md R88: the frame `ENCODE input` computes `encode(input)`, from any state with `MODE = IDLE`. -/
def Obligations.EncodeFrameComputesEncode : Prop :=
  ∀ (s : State) (input : Option (List Byte)) (rest : List Input), s.mode = .idle →
    s.inputs = traceInputs (encodeTrace input) ++ rest →
    Sys2Proof.core.run (encodeTrace input).length s = .next
      { State.reset with out := s.out ++ ((Codec.encode input).map .data ++ [.term .ok]), inputs := rest }

/-- 42_decode.md R119: the frame `DECODE input` appends one piece whose result is `decode(input)`, from any state
with `MODE = IDLE`. -/
def Obligations.DecodeFrameComputesDecode : Prop :=
  ∀ (s : State) (input : Option (List Byte)) (rest : List Input), s.mode = .idle →
    s.inputs = traceInputs (decodeTrace input) ++ rest →
    ∃ p : Piece,
      Sys2Proof.core.run (decodeTrace input).length s = .next
        { State.reset with out := s.out ++ p.items, inputs := rest } ∧
      p.result = some (Codec.decode input) ∧ ((input.getD []).length ≤ 1 → p.data = [])

/-- 43_checksum.md R141: the frame `CHECKSUM input` computes `checksumFast(input)` for the machine's salt, from
any state with `MODE = IDLE`. -/
def Obligations.ChecksumFrameComputesChecksum : Prop :=
  ∀ (s : State) (input : Option (List Byte)) (rest : List Input), s.mode = .idle →
    s.inputs = traceInputs (checksumTrace input) ++ rest →
    Sys2Proof.core.run (checksumTrace input).length s = .next
      { State.reset with
        out := s.out ++ ((Codec.checksumFast Config.salt input).map .data ++ [.term .ok])
        inputs := rest }

/-- 30_encoding.md R52 with 70_reset_and_hazards.md R197 and R204: a trace made of whole frames raises no protocol
fault, and the run is complete, its registers at their reset values. -/
def Obligations.WellFramedTraceNeverFaults : Prop :=
  ∀ (s : State) (trace : List Instr) (rest : List Input), s.mode = .idle → s.Cleared → wellFramed trace = true →
    s.inputs = traceInputs trace ++ rest →
    ∃ (t : State) (items : List Item), Sys2Proof.core.run trace.length s = .next t ∧ t.inputs = rest ∧
      t.out = s.out ++ items ∧ .term .illegalCmd ∉ items ∧ .term .badSequence ∉ items ∧
      t.runEnd = .complete ∧ t.Cleared
end

