-- ==== Sys2Proof/Laws/State.lean ====
section
/-!
SUPPORT. One lemma per field per update, true by rfl, so that no proof unfolds a record update; and what the
composite updates (closing a frame, raising a protocol fault, `SYS.RST`, `RESET`) come to as whole states.
-/

namespace Sys2Proof.Machine

@[simp] theorem State.clear_mode (s : State) : s.clear.mode = s.mode := rfl
@[simp] theorem State.clear_pos (s : State) : s.clear.pos = 0 := rfl
@[simp] theorem State.clear_phase (s : State) : s.clear.phase = 0 := rfl
@[simp] theorem State.clear_carry (s : State) : s.clear.carry = 0 := rfl
@[simp] theorem State.clear_cnt (s : State) : s.clear.cnt = 0 := rfl
@[simp] theorem State.clear_err (s : State) : s.clear.err = false := rfl
@[simp] theorem State.clear_h (s : State) : s.clear.h = 0 := rfl
@[simp] theorem State.clear_out (s : State) : s.clear.out = s.out := rfl
@[simp] theorem State.clear_inputs (s : State) : s.clear.inputs = s.inputs := rfl

@[simp] theorem State.setMode_mode (s : State) (m : Mode) : (s.setMode m).mode = m := rfl
@[simp] theorem State.setMode_pos (s : State) (m : Mode) : (s.setMode m).pos = s.pos := rfl
@[simp] theorem State.setMode_phase (s : State) (m : Mode) : (s.setMode m).phase = s.phase := rfl
@[simp] theorem State.setMode_carry (s : State) (m : Mode) : (s.setMode m).carry = s.carry := rfl
@[simp] theorem State.setMode_cnt (s : State) (m : Mode) : (s.setMode m).cnt = s.cnt := rfl
@[simp] theorem State.setMode_err (s : State) (m : Mode) : (s.setMode m).err = s.err := rfl
@[simp] theorem State.setMode_h (s : State) (m : Mode) : (s.setMode m).h = s.h := rfl
@[simp] theorem State.setMode_out (s : State) (m : Mode) : (s.setMode m).out = s.out := rfl
@[simp] theorem State.setMode_inputs (s : State) (m : Mode) : (s.setMode m).inputs = s.inputs := rfl

@[simp] theorem State.emit_mode (s : State) (i : Item) : (s.emit i).mode = s.mode := rfl
@[simp] theorem State.emit_pos (s : State) (i : Item) : (s.emit i).pos = s.pos := rfl
@[simp] theorem State.emit_phase (s : State) (i : Item) : (s.emit i).phase = s.phase := rfl
@[simp] theorem State.emit_carry (s : State) (i : Item) : (s.emit i).carry = s.carry := rfl
@[simp] theorem State.emit_cnt (s : State) (i : Item) : (s.emit i).cnt = s.cnt := rfl
@[simp] theorem State.emit_err (s : State) (i : Item) : (s.emit i).err = s.err := rfl
@[simp] theorem State.emit_h (s : State) (i : Item) : (s.emit i).h = s.h := rfl
@[simp] theorem State.emit_out (s : State) (i : Item) : (s.emit i).out = s.out ++ [i] := rfl
@[simp] theorem State.emit_inputs (s : State) (i : Item) : (s.emit i).inputs = s.inputs := rfl

@[simp] theorem State.emitData_mode (s : State) (ds : List Byte) : (s.emitData ds).mode = s.mode := rfl
@[simp] theorem State.emitData_pos (s : State) (ds : List Byte) : (s.emitData ds).pos = s.pos := rfl
@[simp] theorem State.emitData_phase (s : State) (ds : List Byte) : (s.emitData ds).phase = s.phase := rfl
@[simp] theorem State.emitData_carry (s : State) (ds : List Byte) : (s.emitData ds).carry = s.carry := rfl
@[simp] theorem State.emitData_cnt (s : State) (ds : List Byte) : (s.emitData ds).cnt = s.cnt := rfl
@[simp] theorem State.emitData_err (s : State) (ds : List Byte) : (s.emitData ds).err = s.err := rfl
@[simp] theorem State.emitData_h (s : State) (ds : List Byte) : (s.emitData ds).h = s.h := rfl
@[simp] theorem State.emitData_out (s : State) (ds : List Byte) : (s.emitData ds).out = s.out ++ ds.map .data := rfl
@[simp] theorem State.emitData_inputs (s : State) (ds : List Byte) : (s.emitData ds).inputs = s.inputs := rfl

@[simp] theorem State.emitSym_mode (s : State) (v : Sym) : (s.emitSym v).mode = s.mode := rfl
@[simp] theorem State.emitSym_pos (s : State) (v : Sym) : (s.emitSym v).pos = s.pos + 1 := rfl
@[simp] theorem State.emitSym_phase (s : State) (v : Sym) : (s.emitSym v).phase = s.phase := rfl
@[simp] theorem State.emitSym_carry (s : State) (v : Sym) : (s.emitSym v).carry = s.carry := rfl
@[simp] theorem State.emitSym_cnt (s : State) (v : Sym) : (s.emitSym v).cnt = s.cnt := rfl
@[simp] theorem State.emitSym_err (s : State) (v : Sym) : (s.emitSym v).err = s.err := rfl
@[simp] theorem State.emitSym_h (s : State) (v : Sym) : (s.emitSym v).h = s.h := rfl
@[simp] theorem State.emitSym_out (s : State) (v : Sym) : (s.emitSym v).out = s.out ++ [.data (symbolAt (substPos s.pos v))] := rfl
@[simp] theorem State.emitSym_inputs (s : State) (v : Sym) : (s.emitSym v).inputs = s.inputs := rfl

@[simp] theorem State.freshIn_mode (s : State) (m : Mode) (items : List Item) : (s.freshIn m items).mode = m := rfl
@[simp] theorem State.freshIn_pos (s : State) (m : Mode) (items : List Item) : (s.freshIn m items).pos = 0 := rfl
@[simp] theorem State.freshIn_phase (s : State) (m : Mode) (items : List Item) : (s.freshIn m items).phase = 0 := rfl
@[simp] theorem State.freshIn_carry (s : State) (m : Mode) (items : List Item) : (s.freshIn m items).carry = 0 := rfl
@[simp] theorem State.freshIn_cnt (s : State) (m : Mode) (items : List Item) : (s.freshIn m items).cnt = 0 := rfl
@[simp] theorem State.freshIn_err (s : State) (m : Mode) (items : List Item) : (s.freshIn m items).err = false := rfl
@[simp] theorem State.freshIn_h (s : State) (m : Mode) (items : List Item) : (s.freshIn m items).h = 0 := rfl
@[simp] theorem State.freshIn_out (s : State) (m : Mode) (items : List Item) : (s.freshIn m items).out = s.out ++ items := rfl
@[simp] theorem State.freshIn_inputs (s : State) (m : Mode) (items : List Item) : (s.freshIn m items).inputs = s.inputs := rfl

/-- `emit TERM(c); clear; MODE <- IDLE` as a whole state. -/
theorem State.closeFrame_eq (s : State) (c : TermCode) : s.closeFrame c = s.freshIn .idle [.term c] := rfl

/-- `raise ProtocolFault(code)` as a whole state (60_exceptions.md R168). -/
theorem State.raiseProtocolFault_eq (s : State) (c : TermCode) :
    s.raiseProtocolFault c = s.freshIn .fault [.term c] := rfl

/-- `SYS.RST` as a whole state (44_system.md R150). -/
theorem State.softReset_eq (s : State) :
    s.softReset =
      s.freshIn .idle (if s.mode = .enc ∨ s.mode = .dec ∨ s.mode = .chk then [.term .aborted] else []) := by
  by_cases h : s.mode = .enc ∨ s.mode = .dec ∨ s.mode = .chk <;>
    simp [State.softReset, State.freshIn, State.setMode, State.clear, State.emit, h]

/-- `RESET` as a whole state (70_reset_and_hazards.md R190). -/
theorem applyReset_eq (s : State) : applyReset s = { State.reset with inputs := s.inputs } := rfl

end Sys2Proof.Machine
end

