-- ==== Sys2Proof/Laws/Ops.lean ====
section
/-!
SUPPORT. What each shared operation can do, said once: the legality check, the meanings' effects as whole
states, the step on each kind of event, and runs.
-/

namespace Sys2Proof.Machine

/-- The legality check in its legal mode. -/
theorem inMode_legal {m : Mode} {f : State → State} {s : State} (h : s.mode = m) (hm : m ≠ .fault) :
    inMode m f s = .next (f s) := by
  subst h
  simp [inMode, hm]

/-- The legality check in FAULT. -/
theorem inMode_fault {m : Mode} {f : State → State} {s : State} (h : s.mode = .fault) :
    inMode m f s = .next s := by
  simp [inMode, h]

/-- The legality check in a mode that is neither the legal one nor FAULT. -/
theorem inMode_bad {m : Mode} {f : State → State} {s : State} (hf : s.mode ≠ .fault) (h : s.mode ≠ m) :
    inMode m f s = .next (s.freshIn .fault [.term .badSequence]) := by
  simp [inMode, hf, h, State.raiseProtocolFault_eq]

/-- Everything the legality check can answer. -/
theorem inMode_cases {m : Mode} {f : State → State} {s t : State} (h : inMode m f s = .next t) :
    (s.mode = .fault ∧ t = s) ∨ (s.mode ≠ .fault ∧ s.mode = m ∧ t = f s) ∨
      (s.mode ≠ .fault ∧ s.mode ≠ m ∧ t = s.freshIn .fault [.term .badSequence]) := by
  unfold inMode at h
  split at h
  · cases h
    exact .inl ⟨‹_›, rfl⟩
  · split at h
    · cases h
      exact .inr (.inl ⟨‹_›, ‹_›, rfl⟩)
    · cases h
      exact .inr (.inr ⟨‹_›, ‹_›, rfl⟩)

/-- An illegal word outside FAULT. -/
theorem illegalWord_live {s : State} (h : s.mode ≠ .fault) :
    illegalWord s = .next (s.freshIn .fault [.term .illegalCmd]) := by
  simp [illegalWord, h, State.raiseProtocolFault_eq]

/-- An illegal word in FAULT. -/
theorem illegalWord_fault {s : State} (h : s.mode = .fault) : illegalWord s = .next s := by
  simp [illegalWord, h]

theorem encBegin_eq (s : State) : encBegin s = s.freshIn .enc [] := by
  simp [encBegin, State.freshIn, State.setMode, State.clear]

theorem decBegin_eq (s : State) : decBegin s = s.freshIn .dec [] := by
  simp [decBegin, State.freshIn, State.setMode, State.clear]

theorem chkBegin_eq (s : State) : chkBegin s = s.freshIn .chk [] := by
  simp [chkBegin, State.freshIn, State.setMode, State.clear]

theorem encAbsent_eq (s : State) : encAbsent s = s.freshIn s.mode [.term .ok] := rfl

theorem decAbsent_eq (s : State) : decAbsent s = s.freshIn s.mode [.term .absent] := rfl

theorem decEnd_eq (s : State) : decEnd s = s.freshIn .idle [.term (decStatus s)] := rfl

/-- The datapath's hash step is the function layer's. -/
theorem hashStep_eq : hashStep = Codec.fold := rfl

/-- The datapath's salt fold is the function layer's. -/
theorem saltFold_eq (salt : List Byte) (g : Hash) : saltFold salt g = Codec.foldAll g salt := rfl

theorem chkEnd_eq (salt : List Byte) (s : State) :
    chkEnd salt s = s.freshIn .idle ((Codec.render salt s.h).map .data ++ [.term .ok]) := by
  simp [chkEnd, finishChecksum, State.freshIn, State.setMode, State.clear, State.emit, State.emitData,
    saltFold_eq, Codec.render]

theorem chkAbsent_eq (salt : List Byte) (s : State) :
    chkAbsent salt s = s.freshIn s.mode ((Codec.render salt 0).map .data ++ [.term .ok]) := by
  simp [chkAbsent, finishChecksum, State.freshIn, State.clear, State.emit, State.emitData, saltFold_eq,
    Codec.render]

/-- The step with no event. -/
theorem step_nil {s : State} (h : s.inputs = []) : step s = .next s := by
  simp [step, nextInput, h]

/-- The step on `RESET`. -/
theorem step_reset {s : State} {rest : List Input} (h : s.inputs = .reset :: rest) :
    step s = .next { State.reset with inputs := rest } := by
  simp [step, nextInput, h, applyReset]

/-- The step on a word that is a command. -/
theorem step_command {s : State} {w : Word} {rest : List Input} {i : Instr} (h : s.inputs = .word w :: rest)
    (hd : decode w = .command i) : step s = exec i { s with inputs := rest } := by
  simp [step, nextInput, h, hd]

/-- The step on an illegal word. -/
theorem step_illegal {s : State} {w : Word} {rest : List Input} {why : Illegal}
    (h : s.inputs = .word w :: rest) (hd : decode w = .illegal why) :
    step s = illegalWord { s with inputs := rest } := by
  simp [step, nextInput, h, hd]

/-- Everything a step can do. -/
theorem step_cases {s t : State} (h : step s = .next t) :
    (s.inputs = [] ∧ t = s) ∨
    (∃ rest, s.inputs = .reset :: rest ∧ t = { State.reset with inputs := rest }) ∨
    (∃ w rest i, s.inputs = .word w :: rest ∧ decode w = .command i ∧
      exec i { s with inputs := rest } = .next t) ∨
    (∃ w rest why, s.inputs = .word w :: rest ∧ decode w = .illegal why ∧
      illegalWord { s with inputs := rest } = .next t) := by
  rcases hi : s.inputs with _ | ⟨e, rest⟩
  · rw [step_nil hi] at h
    cases h
    exact .inl ⟨rfl, rfl⟩
  · cases e with
    | reset =>
      rw [step_reset hi] at h
      cases h
      exact .inr (.inl ⟨rest, rfl, rfl⟩)
    | word w =>
      rcases hd : decode w with i | why
      · rw [step_command hi hd] at h
        exact .inr (.inr (.inl ⟨w, rest, i, rfl, hd, h⟩))
      · rw [step_illegal hi hd] at h
        exact .inr (.inr (.inr ⟨w, rest, why, rfl, hd, h⟩))

/-- A run of `k + 1` steps whose first step goes on. -/
theorem run_succ {k : Nat} {s t : State} (h : step s = .next t) :
    Sys2Proof.core.run (k + 1) s = Sys2Proof.core.run k t := by
  simp [Host.Core.run, Sys2Proof.core, h]

/-- A run of `j + k` steps whose first `j` steps go on. -/
theorem run_add {j k : Nat} {s t : State} (h : Sys2Proof.core.run j s = .next t) :
    Sys2Proof.core.run (j + k) s = Sys2Proof.core.run k t := by
  induction j generalizing s with
  | zero =>
    cases h
    rw [Nat.zero_add]
  | succ j ih =>
    rw [Nat.succ_add]
    rcases hs : Sys2Proof.core.step s with u | r | r
    · simp only [Host.Core.run, hs] at h ⊢
      exact ih h
    · exact nomatch r
    · simp [Host.Core.run, hs] at h

end Sys2Proof.Machine
end

