-- ==== Sys2Proof/Laws/PerInstr.lean ====
section
/-!
SUPPORT. Statements about every command as syntax, one lemma per constructor.
-/

/-- The fields of a command's word pass every check of 30_encoding.md R55. -/
def Sys2Proof.Laws.EncodedWellFormed.Statement (i : Sys2Proof.Instr) : Prop :=
  (Sys2Proof.splitWord (Sys2Proof.encode i)).wellFormed = true

namespace Sys2Proof.Laws

/-- The bits of a word given as its upper and its lower byte. -/
theorem getLsbD_word (u d : Byte) (k : Nat) :
    BitVec.getLsbD (u ++ d : Word) k = if k < 8 then d.getLsbD k else u.getLsbD (k - 8) := by
  have h := BitVec.getLsbD_append (x := u) (y := d) (i := k)
  simpa using h

/-- The fields of a word given as its upper and its lower byte. -/
theorem splitWord_append (u d : Byte) :
    splitWord (u ++ d) = ⟨u.extractLsb' 4 4, u.extractLsb' 0 4, d⟩ := by
  have h1 : BitVec.extractLsb' 12 4 (u ++ d : Word) = u.extractLsb' 4 4 := by
    ext i hi
    simp [getLsbD_word, show ¬12 + i < 8 by omega, show 12 + i - 8 = 4 + i by omega]
  have h2 : BitVec.extractLsb' 8 4 (u ++ d : Word) = u.extractLsb' 0 4 := by
    ext i hi
    simp [getLsbD_word]
  have h3 : BitVec.extractLsb' 0 8 (u ++ d : Word) = d := by
    ext i hi
    simp [getLsbD_word, hi, BitVec.getLsbD_eq_getElem]
  simp only [splitWord, h1, h2, h3]

end Sys2Proof.Laws

namespace Sys2Proof.Laws.EncodedWellFormed

theorem sysRst : Statement .sysRst := by unfold Statement; decide
theorem encBegin : Statement .encBegin := by unfold Statement; decide
theorem encPush (b : Byte) : Statement (.encPush b) := by
  simp only [Statement, encode, splitWord_append]; rfl
theorem encEnd : Statement .encEnd := by unfold Statement; decide
theorem encAbsent : Statement .encAbsent := by unfold Statement; decide
theorem decBegin : Statement .decBegin := by unfold Statement; decide
theorem decPush (b : Byte) : Statement (.decPush b) := by
  simp only [Statement, encode, splitWord_append]; rfl
theorem decEnd : Statement .decEnd := by unfold Statement; decide
theorem decAbsent : Statement .decAbsent := by unfold Statement; decide
theorem chkBegin : Statement .chkBegin := by unfold Statement; decide
theorem chkPush (b : Byte) : Statement (.chkPush b) := by
  simp only [Statement, encode, splitWord_append]; rfl
theorem chkEnd : Statement .chkEnd := by unfold Statement; decide
theorem chkAbsent : Statement .chkAbsent := by unfold Statement; decide

end Sys2Proof.Laws.EncodedWellFormed
end

