-- ==== Sys2Proof/Tests/Slice0.lean ====
section
/-!
SUPPORT. Tests of the model against spec/ (words of 30_encoding.md R53, vectors of 95_test_vectors.md), and for
each statement with hypotheses a witness that meets them.
-/

namespace Sys2Proof.Tests

open Sys2Proof Sys2Proof.Machine

/-- A state with every register at reset but the mode. -/
def modeState (m : Mode) : State := { State.reset with mode := m }

/-- The state after reset with the given words presented, and nothing else. -/
def presented (ws : List Word) : State := { State.reset with inputs := ws.map .word }

/-- The state a number of steps leads to, the start where they stop. -/
def after (k : Nat) (s : State) : State :=
  match Sys2Proof.core.run k s with
  | .next t => t
  | _ => s

/-- The state a command leads to. -/
def result (i : Instr) (s : State) : State :=
  match exec i s with
  | .next t => t
  | _ => s

/-! ## Decoding: one word per command, written out from R53 -/

theorem test_decode_sysRst : decode 0b0000000100000000 = .command .sysRst := by decide
theorem test_decode_encBegin : decode 0b0001000000000000 = .command .encBegin := by decide
theorem test_decode_encPush : decode 0b0001000110110101 = .command (.encPush 0xB5) := by decide
theorem test_decode_encEnd : decode 0b0001001000000000 = .command .encEnd := by decide
theorem test_decode_encAbsent : decode 0b0001001100000000 = .command .encAbsent := by decide
theorem test_decode_decBegin : decode 0b0010000000000000 = .command .decBegin := by decide
theorem test_decode_decPush : decode 0b0010000100101011 = .command (.decPush 0x2B) := by decide
theorem test_decode_decEnd : decode 0b0010001000000000 = .command .decEnd := by decide
theorem test_decode_decAbsent : decode 0b0010001100000000 = .command .decAbsent := by decide
theorem test_decode_chkBegin : decode 0b0011000000000000 = .command .chkBegin := by decide
theorem test_decode_chkPush : decode 0b0011000110000001 = .command (.chkPush 0x81) := by decide
theorem test_decode_chkEnd : decode 0b0011001000000000 = .command .chkEnd := by decide
theorem test_decode_chkAbsent : decode 0b0011001100000000 = .command .chkAbsent := by decide

/-- The illegal words of 95_test_vectors.md F-1 and F-7 to F-13. -/
theorem test_decode_illegal :
    [0x0000, 0x2001, 0x4000, 0xFFFF, 0x1400, 0x0200, 0x0101, 0x1301].map decode =
      [.illegal .reservedSysFunction, .illegal .dataNotZero, .illegal .reservedUnit, .illegal .reservedUnit,
       .illegal .reservedFunction, .illegal .reservedSysFunction, .illegal .dataNotZero, .illegal .dataNotZero] := by
  decide

theorem test_decodeTableWord : decodeTableWord 16 0x114D = some (.encPush 0x4D) ∧ decodeTableWord 16 0 = none := by
  decide

/-! ## Well-formedness: an ill-formed term for each check -/

theorem test_fields_reservedUnit : Fields.unitOk ⟨4, 0, 0⟩ = false := by decide
theorem test_fields_reservedFunction : Fields.functionOk ⟨1, 4, 0⟩ = false := by decide
theorem test_fields_sysFunction : Fields.sysFunctionOk ⟨0, 2, 0⟩ = false := by decide
theorem test_fields_data : Fields.dataOk ⟨2, 0, 1⟩ = false := by decide
theorem test_fields_wellFormed : Fields.wellFormed ⟨3, 1, 0xFF⟩ = true ∧ Fields.wellFormed ⟨0, 1, 0⟩ = true := by decide

theorem test_framed : wellFramed [.encBegin, .encPush 1, .encEnd, .decAbsent, .chkBegin, .sysRst] = true := by decide
theorem test_framed_beginInFrame : wellFramed [.encBegin, .decBegin] = false := by decide
theorem test_framed_absentInFrame : wellFramed [.encBegin, .encAbsent, .encEnd] = false := by decide
theorem test_framed_pushOutside : wellFramed [.encPush 0] = false := by decide
theorem test_framed_endOfOther : wellFramed [.encBegin, .decEnd] = false := by decide
theorem test_framed_leftOpen : wellFramed [.chkBegin, .chkPush 0] = false := by decide

/-! ## Tables and function layer: 95_test_vectors.md sections 1 and 2 -/

/-- R65: the entries are the codes of the string's characters. -/
theorem test_alphabet : alphabetString.toList.map (fun c => BitVec.ofNat 8 c.toNat) = alphaTable := by decide

/-- A-1 to A-12. -/
theorem test_tables :
    [0, 1, 5, 19, 62, 63].map symbolAt = [0x68, 0x46, 0x5F, 0x77, 0x2D, 0x34] ∧
    [0x68, 0x34, 0x2D, 0x5F, 0x2B, 0x2F].map indexOf = [some 0, some 63, some 62, some 5, none, none] ∧
    invRom 0x34 = 0b1111111 ∧ invRom 0xE8 = 0 := by decide

/-- A-17, A-19, A-23, A-26, A-31. -/
theorem test_subst : subst 1 63 = 0 ∧ subst 63 63 = 62 ∧ subst 65 63 = 0 ∧ unsubst 1 0 = 63 ∧ unsubst 65 0 = 63 := by
  decide

/-- E-1, E-2, E-6, E-12, E-19. -/
theorem test_encode :
    Codec.encode none = [] ∧ Codec.encode (some []) = [0x68] ∧ Codec.encode (some [0xFF, 0xFF]) = [0x34, 0x68, 0x2D] ∧
    Codec.encode (some [0x4D, 0x61, 0x6E, 0x61]) = [0x77, 0x71, 0x35, 0x4C, 0x50, 0x67] ∧
    Codec.encode (some [0x80, 0x80, 0x80]) = [0x6E, 0x57, 0x73, 0x33] := by decide

/-- D-2, D-7, D-11, D-12, D-15, D-20, D-21. -/
theorem test_codec_decode :
    Codec.decode (some []) = .absent ∧ Codec.decode (some [0x68, 0x68, 0x68, 0x68]) = .present [0x03, 0xFF, 0xBD] ∧
    Codec.decode (some [0x2B]) = .present [] ∧ Codec.decode (some [0x2B, 0x68]) = .error .char ∧
    Codec.decode (some [0x77, 0x71, 0x32]) = .present [0x4D, 0x61] ∧
    Codec.decode (some [0x77, 0x71, 0x35, 0x4C, 0x2B]) = .error .char ∧
    Codec.decode (some [0x68, 0x68, 0x68, 0x68, 0x68]) = .error .len := by decide

/-- K-2, K-8: the byte extraction pins; K-11, K-15, K-17 with the illustrative salts. -/
theorem test_checksum :
    Codec.render [] 0x12345678 = [0x73, 0x79, 0x77, 0x4F, 0x6A, 0x5F] ∧
    Codec.render [] 0xEB17AFD6 = [0x65, 0x47, 0x6E, 0x47, 0x38, 0x66] ∧
    Codec.checksumFast [] (some [0x61, 0x62, 0x63]) = [0x68, 0x46, 0x35, 0x6D, 0x50, 0x66] ∧
    Codec.checksumFast [0x73, 0x61, 0x6C, 0x74] none = [0x68, 0x73, 0x4F, 0x33, 0x4F, 0x66] ∧
    Codec.checksumFast [0x73, 0x61, 0x6C, 0x74] (some [0x61, 0x62, 0x63]) = [0x58, 0x33, 0x31, 0x65, 0x47, 0x5F] := by
  decide

/-! ## Commands: one step each, 95_test_vectors.md section 2.5 and programs P1 to P3 -/

theorem test_sysRst_aborts : result .sysRst (modeState .chk) = { State.reset with out := [.term .aborted] } := by decide
theorem test_sysRst_leavesFault : result .sysRst (modeState .fault) = State.reset := by decide
theorem test_encBegin : result .encBegin State.reset = modeState .enc := by decide
theorem test_encBegin_inFrame :
    result .encBegin (modeState .enc) = { modeState .fault with out := [.term .badSequence] } := by decide
/-- P1 row 3. -/
theorem test_encPush_second :
    result (.encPush 0x61) { modeState .enc with pos := 1, phase := 1, carry := 1, cnt := 1 } =
      { modeState .enc with pos := 2, phase := 2, carry := 1, cnt := 2, out := [.data 0x71] } := by decide
/-- P1 row 4: two symbols, the second at the next position. -/
theorem test_encPush_third :
    result (.encPush 0x6E) { modeState .enc with pos := 2, phase := 2, carry := 1, cnt := 2 } =
      { modeState .enc with pos := 4, cnt := 2, out := [.data 0x35, .data 0x4C] } := by decide
theorem test_encEnd_empty : result .encEnd (modeState .enc) = { State.reset with out := [.data 0x68, .term .ok] } := by
  decide
/-- P1 row 6. -/
theorem test_encEnd_tail :
    result .encEnd { modeState .enc with pos := 5, phase := 1, carry := 1, cnt := 2 } =
      { State.reset with out := [.data 0x67, .term .ok] } := by decide
theorem test_encAbsent : result .encAbsent State.reset = { State.reset with out := [.term .ok] } := by decide
theorem test_decBegin : result .decBegin State.reset = modeState .dec := by decide
/-- P1 row 10: the middle of a group. -/
theorem test_decPush_third :
    result (.decPush 0x35) { modeState .dec with pos := 2, phase := 2, carry := 6, cnt := 2 } =
      { modeState .dec with pos := 3, phase := 3, carry := 1, cnt := 2, out := [.data 0x61] } := by decide
/-- F-21. -/
theorem test_decPush_invalid :
    result (.decPush 0x2B) (modeState .dec) = { modeState .dec with pos := 1, phase := 1, cnt := 1, err := true } ∧
    (result (.decPush 0x2B) (modeState .dec)).stat = 0b1010 := by decide
/-- F-22: one character alone ends OK even when it is outside the alphabet. -/
theorem test_decEnd_single :
    result .decEnd { modeState .dec with pos := 1, phase := 1, cnt := 1, err := true } =
      { State.reset with out := [.term .ok] } := by decide
/-- D-20: ERR_CHAR before ERR_LEN. -/
theorem test_decEnd_priority :
    result .decEnd { modeState .dec with pos := 5, phase := 1, cnt := 2, err := true } =
      { State.reset with out := [.term .errChar] } := by decide
theorem test_decAbsent : result .decAbsent State.reset = { State.reset with out := [.term .absent] } := by decide
theorem test_chkBegin : result .chkBegin State.reset = modeState .chk := by decide
/-- R131: a byte with bit 7 set adds 128. -/
theorem test_chkPush : (result (.chkPush 0x80) { modeState .chk with h := 0x7FFFFFFF }).h = 0x80000061 := by decide
/-- K-18 for the effect with the illustrative salt. -/
theorem test_chkEnd :
    chkEnd [0x73, 0x61, 0x6C, 0x74] { modeState .chk with h := 0xEC45AF80 } =
      { State.reset with out := [.data 0x65, .data 0x47, .data 0x6E, .data 0x47, .data 0x38, .data 0x66, .term .ok] } := by
  decide
/-- K-19 for the effect with the illustrative salt. -/
theorem test_chkAbsent :
    chkAbsent [0x01] State.reset =
      { State.reset with out := [.data 0x68, .data 0x46, .data 0x31, .data 0x33, .data 0x73, .data 0x67, .term .ok] } := by
  decide

/-! ## The step, ports and trace syntax -/

/-- F-1 and F-18: an illegal word faults, and in FAULT it is ignored. -/
theorem test_step_illegal :
    after 1 (presented [0x0000, 0x0000]) =
      { modeState .fault with out := [.term .illegalCmd], inputs := [.word 0x0000] } ∧
    after 2 (presented [0x0000, 0x0000]) = { modeState .fault with out := [.term .illegalCmd] } := by decide

theorem test_step_reset :
    after 1 { modeState .fault with out := [.term .illegalCmd], inputs := [.reset, .word 0x1000] } =
      presented [0x1000] := by decide

theorem test_withFetchWord :
    after 1 (State.reset.withFetchWord 16 0x2000) = modeState .dec := by decide

/-- 30_encoding.md R56, R57 and the `OUT` log of P3 as 10-bit numbers. -/
theorem test_item_words :
    [Item.data 0x4D, .term .errLen, .term .badSequence].map Item.word = [0x04D, 0x103, 0x1F1] := by decide

/-- R58 on D-18: the piece's `DATA` is void; and a provisional item of an open frame. -/
theorem test_pieces :
    cutPieces [] [.data 0x4D, .term .errChar, .data 0x77] = ([⟨[0x4D], .errChar⟩], [0x77]) ∧
    Piece.result ⟨[0x4D], .errChar⟩ = some (.error .char) := by decide

/-- R60: trace syntax. -/
theorem test_render :
    renderCommand (.encPush 0x4D) = "ENC.PUSH 0x4D" ∧ renderItem (.data 0x0A) = "D:0A" ∧
    renderItem (.term .badSequence) = "T:BAD_SEQUENCE" := by decide

/-- R60: `ENCODE [4D 61]` as words. -/
theorem test_trace :
    traceInputs (encodeTrace (some [0x4D, 0x61])) = [0x1000, 0x114D, 0x1161, 0x1200].map .word := by decide

/-! ## Witnesses: states and operands that meet the hypotheses of the statements -/

theorem witness_ResetInputRestoresResetState :
    ({ modeState .dec with inputs := [.reset] } : State).inputs = .reset :: [] := rfl

theorem witness_StepChecksInOrder :
    (presented [0x0100]).inputs = .word 0x0100 :: [] ∧
    (0x1000 : Word) ≠ 0x0100 ∧ (modeState .fault).mode = .fault ∧
    ((presented [0x0000]).mode ≠ .fault ∧ ∀ r ∈ opcodeRows, ¬r.selects 0x0000) ∧
    (decode 0x1100 = .command (.encPush 0) ∧ legalIn (.encPush 0) .idle = false) ∧
    (decode 0x1000 = .command .encBegin ∧ legalIn .encBegin .idle = true) := by
  refine ⟨rfl, by decide, rfl, ⟨by decide, ?_⟩, by decide, by decide⟩
  simp [opcodeRows, OpcodeRow.selects]

theorem witness_StepRunsDecodedCommand :
    (presented [0x11FF]).inputs = .word 0x11FF :: [] ∧ decode 0x11FF = .command (.encPush 0xFF) := by decide

theorem witness_StepWithoutEventHoldsState : (modeState .enc).inputs = [] := rfl

theorem witness_IllegalWordsRaiseIllegalCmd :
    ((presented [0xFFFF]).inputs = .word 0xFFFF :: [] ∧ decode 0xFFFF = .illegal .reservedUnit ∧
      (presented [0xFFFF]).mode ≠ .fault) ∧
    (({ presented [0xFFFF] with mode := .fault } : State).inputs = .word 0xFFFF :: [] ∧
      ({ presented [0xFFFF] with mode := .fault } : State).mode = .fault) := by decide

theorem witness_AlphabetTableContent : symbolAt 63 = symbolAt 63 ∧ symbolAt 62 = 0x2D := by decide

theorem witness_IndexOfInvertsSymbolAt : symbolAt 63 = 0x34 ∧ ∀ i : Sym, symbolAt i ≠ 0x2B := by decide

theorem witness_SubstitutionInverseLaws : symbolAt (subst 127 63) = symbolAt (subst 127 63) := rfl

theorem witness_EncodeSubstitutesEveryRawValue : ([0, 0, 0] : List Byte) ≠ [] ∧ 0 < ([0, 0, 0] : List Byte).length / 3 := by
  decide

theorem witness_EncodeLengthLaw : 1 ≤ ([0xFF] : List Byte).length := by decide

theorem witness_EncodeStreamsByPrefix : ([0x4D] : List Byte) ≠ [] := by decide

theorem witness_EncodeRestartsEverySixtyFour :
    (List.replicate 48 (0 : Byte)) ≠ [] ∧ ([0] : List Byte) ≠ [] ∧ (List.replicate 48 (0 : Byte)).length % 48 = 0 := by
  decide

theorem witness_BytesAreBuiltByGroups :
    2 ≤ ([63, 63, 63, 63, 0, 0] : List Sym).length ∧ ([63, 63, 63, 63, 0, 0] : List Sym).length % 4 ≠ 1 ∧
    0 < ([63, 63, 63, 63, 0, 0] : List Sym).length / 4 := by decide

theorem witness_DecodeCases :
    (2 ≤ ([0x2B, 0x68] : List Byte).length ∧ ∃ ch ∈ ([0x2B, 0x68] : List Byte), indexOf ch = none) ∧
    ((∀ ch ∈ ([0x68, 0x68, 0x68, 0x68, 0x68] : List Byte), indexOf ch ≠ none) ∧
      ([0x68, 0x68, 0x68, 0x68, 0x68] : List Byte).length % 4 = 1) ∧
    ((∀ ch ∈ ([0x77, 0x41] : List Byte), indexOf ch ≠ none) ∧ ([0x77, 0x41] : List Byte).length % 4 ≠ 1 ∧
      ([0x77, 0x41] : List Byte)[1]? = some 0x41) := by decide

theorem witness_DecodeLengthLaw :
    2 ≤ ([0x77, 0x41] : List Byte).length ∧ ([0x77, 0x41] : List Byte).length % 4 ≠ 1 ∧
    ∀ ch ∈ ([0x77, 0x41] : List Byte), indexOf ch ≠ none := by decide

theorem witness_DecodeAcceptsNonCanonical : (0x2B : Byte) ≠ symbolAt 0 := by decide

/-- For the commands' statements: a state in each mode. -/
theorem witness_modes :
    (modeState .idle).mode = .idle ∧ (modeState .enc).mode = .enc ∧ (modeState .dec).mode = .dec ∧
    (modeState .chk).mode = .chk ∧ (modeState .fault).mode = .fault := by decide

/-- `LegalOnlyIn`: a mode that is neither FAULT nor the legal one. -/
theorem witness_LegalOnlyIn : (modeState .enc).mode ≠ .fault ∧ (modeState .enc).mode ≠ .idle ∧ (modeState .idle).mode ≠ .enc ∧
    (modeState .idle).mode ≠ .dec ∧ (modeState .idle).mode ≠ .chk := by decide

theorem witness_SysRstAbandonsAndClears :
    (State.reset.mode = .idle ∧ State.reset.Cleared) ∧ exec .sysRst (modeState .chk) =
      .next { State.reset with out := [.term .aborted] } := ⟨by decide, rfl⟩

/-- One state per clause: PHASE 0, 1 and 2 in an ENC frame. -/
theorem witness_EncPushEmitsSymbols :
    ((modeState .enc).mode = .enc ∧ (modeState .enc).phase = 0) ∧
    (({ modeState .enc with phase := 1, carry := 3, cnt := 1, pos := 63 } : State).mode = .enc ∧
      ({ modeState .enc with phase := 1, carry := 3, cnt := 1, pos := 63 } : State).phase = 1) ∧
    (({ modeState .enc with phase := 2, carry := 15, cnt := 2, pos := 63 } : State).mode = .enc ∧
      ({ modeState .enc with phase := 2, carry := 15, cnt := 2, pos := 63 } : State).phase = 2) := by decide

theorem witness_EncEndFlushesRemainder :
    ((modeState .enc).mode = .enc ∧ (modeState .enc).cnt = 0) ∧
    (({ modeState .enc with cnt := 2, pos := 4 } : State).cnt ≠ 0 ∧ ({ modeState .enc with cnt := 2, pos := 4 } : State).phase = 0) ∧
    (({ modeState .enc with cnt := 1, phase := 1 } : State).cnt ≠ 0 ∧ ({ modeState .enc with cnt := 1, phase := 1 } : State).phase = 1) ∧
    (({ modeState .enc with cnt := 2, phase := 2 } : State).cnt ≠ 0 ∧ ({ modeState .enc with cnt := 2, phase := 2 } : State).phase = 2) := by
  decide

/-- One state per clause: a rejected character by itself and by `ERR`, and an accepted one in each PHASE. -/
theorem witness_DecPushRebuildsBytes :
    (({ modeState .dec with err := true } : State).err = true ∧ indexOf 0x2B = none) ∧
    ((modeState .dec).mode = .dec ∧ (modeState .dec).err = false ∧ indexOf 0x34 = some 63 ∧ (modeState .dec).phase = 0) ∧
    (({ modeState .dec with phase := 1 } : State).mode = .dec ∧ ({ modeState .dec with phase := 1 } : State).err = false ∧
      ({ modeState .dec with phase := 1 } : State).phase = 1) ∧
    (({ modeState .dec with phase := 2 } : State).mode = .dec ∧ ({ modeState .dec with phase := 2 } : State).err = false ∧
      ({ modeState .dec with phase := 2 } : State).phase = 2) ∧
    (({ modeState .dec with phase := 3 } : State).mode = .dec ∧ ({ modeState .dec with phase := 3 } : State).err = false ∧
      ({ modeState .dec with phase := 3 } : State).phase = 3) := by decide

theorem witness_DecEndReportsStatus :
    ((modeState .dec).mode = .dec ∧ (modeState .dec).cnt = 0) ∧ ({ modeState .dec with cnt := 1 } : State).cnt = 1 ∧
    (({ modeState .dec with cnt := 2, err := true } : State).cnt = 2 ∧ ({ modeState .dec with cnt := 2, err := true } : State).err = true) ∧
    (({ modeState .dec with cnt := 2, phase := 1 } : State).err = false ∧ ({ modeState .dec with cnt := 2, phase := 1 } : State).phase = 1) ∧
    (({ modeState .dec with cnt := 2 } : State).cnt = 2 ∧ ({ modeState .dec with cnt := 2 } : State).err = false ∧
      ({ modeState .dec with cnt := 2 } : State).phase ≠ 1) := by decide

theorem witness_DecAbsentReportsAbsent :
    State.reset.mode = .idle ∧ exec .decBegin State.reset = .next (modeState .dec) := ⟨rfl, rfl⟩

theorem witness_ChkAbsentRendersSaltAlone :
    State.reset.mode = .idle ∧ exec .chkBegin State.reset = .next (modeState .chk) := ⟨rfl, rfl⟩

theorem witness_ModeTransitionTable :
    (presented [0x0000]).inputs = .word 0x0000 :: [] ∧ decode 0x0000 = .illegal .reservedSysFunction := by decide

theorem witness_MisplacedCommandRaisesBadSequence :
    ((modeState .enc).mode ≠ .fault ∧ column .decAbsent = .absent ∧ (modeState .enc).mode ≠ .idle) ∧
    ((modeState .idle).mode ≠ .fault ∧ column .chkEnd = .end_ ∧ unitMode .chkEnd ≠ some (modeState .idle).mode) := by decide

theorem witness_FaultModeIsSticky :
    (({ presented [0x1000] with mode := .fault } : State).mode = .fault ∧
      ({ presented [0x1000] with mode := .fault } : State).inputs = .word 0x1000 :: [] ∧ (0x1000 : Word) ≠ 0x0100) ∧
    step { presented [0x0100] with mode := .fault } = .next State.reset ∧ State.reset.mode ≠ .fault :=
  ⟨by decide, rfl, by decide⟩

theorem witness_OneCommandAddsAtMostOneTerm :
    exec .encEnd (modeState .enc) = .next { State.reset with out := [.data 0x68, .term .ok] } ∧
    step (presented [0x1300]) = .next { State.reset with out := [.term .ok] } := ⟨rfl, rfl⟩

theorem witness_EncAndChkNeverFail :
    (unitMode (.encPush 0xFF) = some .enc ∧ (modeState .enc).mode ≠ .fault ∧ legalIn (.encPush 0xFF) (modeState .enc).mode = true) ∧
    (unitMode .chkEnd = some .chk ∧ legalIn .chkEnd (modeState .chk).mode = true) := by decide

theorem witness_ClearingCommandsClear :
    (legalIn .decEnd (modeState .dec).mode = true ∧ column .decEnd ≠ .push ∧
      exec .decEnd (modeState .dec) = .next { State.reset with out := [.term .absent] }) ∧
    (step (presented [0x1100]) = .next { modeState .fault with out := [.term .badSequence] } ∧
      (presented [0x1100]).mode ≠ .fault) ∧
    step { modeState .chk with h := 9, inputs := [.reset] } = .next State.reset :=
  ⟨⟨by decide, by decide, rfl⟩, ⟨rfl, by decide⟩, rfl⟩

theorem witness_PushLeavesTheRestAlone :
    exec (.encPush 0) (modeState .enc) = .next { modeState .enc with pos := 1, phase := 1, cnt := 1, out := [.data 0x68] } ∧
    exec (.decPush 0x68) { modeState .dec with err := true } =
      .next { modeState .dec with err := true, pos := 1, phase := 1, cnt := 1 } ∧
    exec (.chkPush 0xFF) (modeState .chk) = .next { modeState .chk with h := 0xFF } := ⟨rfl, rfl, rfl⟩

theorem witness_CommandsDoNotReadOut : exec .decAbsent State.reset = .next { State.reset with out := [.term .absent] } :=
  rfl

theorem witness_OutIsReadPieceByPiece :
    ([⟨[0x4D], .ok⟩] : List Piece).flatMap Piece.items ++ ([0x77] : List Byte).map .data =
      ({ State.reset with out := [.data 0x4D, .term .ok, .data 0x77] } : State).out := by decide

theorem witness_StepKeepsInvariant : State.Inv (presented [0x2000]) ∧ step (presented [0x2000]) = .next (modeState .dec) :=
  ⟨⟨by decide, by decide, by decide, by decide⟩, rfl⟩

/-- The invariant is met inside frames too, at the widest CARRY of R16. -/
theorem witness_Inv_inFrames :
    State.Inv { modeState .enc with pos := 63, phase := 2, carry := 15, cnt := 2 } ∧
    State.Inv { modeState .dec with pos := 61, phase := 1, carry := 63, cnt := 2 } ∧
    State.Inv { modeState .chk with h := 0xFFFFFFFF } :=
  ⟨⟨by decide, by decide, by decide, by decide⟩, ⟨by decide, by decide, by decide, by decide⟩,
    ⟨by decide, by decide, by decide, by decide⟩⟩

theorem witness_StepKeepsOutClosed : State.OutClosed (presented [0x1300]) ∧
    step (presented [0x1300]) = .next { State.reset with out := [.term .ok] } := ⟨by decide, rfl⟩

theorem witness_EncFrameRegisters :
    (presented [0x1000, 0x11FF]).mode = .idle ∧
    (presented [0x1000, 0x11FF]).inputs = traceInputs (.encBegin :: ([0xFF] : List Byte).map .encPush) ++ [] ∧
    ([0xFF] : List Byte).getLast? = some 0xFF := by decide

theorem witness_DecFrameRegisters :
    (presented [0x2000, 0x2168, 0x212B]).mode = .idle ∧
    (presented [0x2000, 0x2168, 0x212B]).inputs = traceInputs (.decBegin :: ([0x68, 0x2B] : List Byte).map .decPush) ++ [] ∧
    (([0x68, 0x2B] : List Byte)[1]? = some 0x2B ∧ indexOf 0x2B = none ∧
      ∀ ch ∈ ([0x68, 0x2B] : List Byte).take 1, indexOf ch ≠ none) ∧
    Codec.rawOf 0 [0x34] = some [63] ∧ ([63] : List Sym).getLast? = some 63 := by decide

theorem witness_EncodeFrameComputesEncode :
    (presented [0x1000, 0x114D, 0x1200]).inputs = traceInputs (encodeTrace (some [0x4D])) ++ [] ∧
    (presented [0x1300]).inputs = traceInputs (encodeTrace none) ++ [] := by decide

theorem witness_DecodeFrameComputesDecode :
    (presented [0x2000, 0x212B, 0x2200]).inputs = traceInputs (decodeTrace (some [0x2B])) ++ [] ∧
    (([0x2B] : List Byte)).length ≤ 1 ∧ (presented [0x2300]).inputs = traceInputs (decodeTrace none) ++ [] := by decide

theorem witness_ChecksumFrameComputesChecksum :
    (presented [0x3000, 0x3161, 0x3200]).inputs = traceInputs (checksumTrace (some [0x61])) ++ [] ∧
    (presented [0x3300]).inputs = traceInputs (checksumTrace none) ++ [] := by decide

theorem witness_WellFramedTraceNeverFaults :
    (presented [0x1000, 0x1200, 0x3000, 0x0100]).mode = .idle ∧ (presented [0x1000, 0x1200, 0x3000, 0x0100]).Cleared ∧
    wellFramed [.encBegin, .encEnd, .chkBegin, .sysRst] = true ∧
    (presented [0x1000, 0x1200, 0x3000, 0x0100]).inputs =
      traceInputs [.encBegin, .encEnd, .chkBegin, .sysRst] ++ [] := by decide

end Sys2Proof.Tests
end

section
/-!
SUPPORT. What every command does, said once: a legal command answers its effect, a misplaced one enters FAULT
(44_system.md R154); which effects clear (10_state.md R22); the status wires and the item words (R20,
30_encoding.md R56).
-/

namespace Sys2Proof.Machine

/-! ## The meaning of a command -/

/-- The effect of a command where it is legal (30_encoding.md R53, column "rule"). -/
def effect : Instr → State → State
  | .sysRst    => State.softReset
  | .encBegin  => encBegin
  | .encPush b => encPush b
  | .encEnd    => encEnd
  | .encAbsent => encAbsent
  | .decBegin  => decBegin
  | .decPush c => decPush c
  | .decEnd    => decEnd
  | .decAbsent => decAbsent
  | .chkBegin  => chkBegin
  | .chkPush b => chkPush b
  | .chkEnd    => chkEnd Config.salt
  | .chkAbsent => chkAbsent Config.salt

/-- Every command but `SYS.RST` is its effect behind the legality check for its mode in `legalMode`. -/
theorem exec_eq_inMode {i : Instr} {m : Mode} (h : legalMode i = some m) (s : State) :
    exec i s = inMode m (effect i) s := by
  cases i <;> cases h <;> rfl

theorem eq_sysRst_of_legalMode_eq_none {i : Instr} (h : legalMode i = none) : i = .sysRst := by
  cases i with
  | sysRst => rfl
  | _ => cases h

theorem legalMode_ne_fault {i : Instr} {m : Mode} (h : legalMode i = some m) : m ≠ .fault := by
  cases i <;> cases h <;> decide

theorem legalIn_eq_true_iff {i : Instr} {m : Mode} (h : legalMode i = some m) (m' : Mode) :
    legalIn i m' = true ↔ m' = m := by
  simp [legalIn, h]

/-- A legal command answers its effect. -/
theorem exec_of_legal {i : Instr} {s : State} (h : legalIn i s.mode = true) :
    exec i s = .next (effect i s) := by
  rcases hl : legalMode i with _ | m
  · cases eq_sysRst_of_legalMode_eq_none hl
    rfl
  · rw [exec_eq_inMode hl, inMode_legal ((legalIn_eq_true_iff hl _).mp h) (legalMode_ne_fault hl)]

/-- A command that is not legal in the current mode, FAULT excepted, raises `BAD_SEQUENCE`. -/
theorem exec_of_not_legal {i : Instr} {s : State} (h : legalIn i s.mode ≠ true) (hf : s.mode ≠ .fault) :
    exec i s = .next (s.freshIn .fault [.term .badSequence]) := by
  rcases hl : legalMode i with _ | m
  · simp [legalIn, hl] at h
  · rw [exec_eq_inMode hl, inMode_bad hf (mt (legalIn_eq_true_iff hl _).mpr h)]

/-! ## Clearing -/

theorem State.freshIn_cleared (s : State) (m : Mode) (items : List Item) : (s.freshIn m items).Cleared :=
  ⟨rfl, rfl, rfl, rfl, rfl, rfl⟩

theorem State.reset_cleared (rest : List Input) : State.Cleared { State.reset with inputs := rest } :=
  ⟨rfl, rfl, rfl, rfl, rfl, rfl⟩

/-- `ENC.END` as a whole state: the items of `encTail` are `DATA` (41_encode.md R84). -/
theorem encEnd_eq_freshIn (s : State) :
    ∃ ds : List Byte, encEnd s = s.freshIn .idle (ds.map .data ++ [.term .ok]) := by
  simp only [encEnd, encTail, State.closeFrame_eq]
  split_ifs
  · exact ⟨[symbolAt 0], by simp [State.freshIn]⟩
  · exact ⟨[symbolAt (substPos s.pos (encTail2 s.carry))], by simp [State.freshIn]⟩
  · exact ⟨[symbolAt (substPos s.pos (encTail4 s.carry))], by simp [State.freshIn]⟩
  · exact ⟨[], rfl⟩

@[simp] theorem encPush_mode (b : Byte) (s : State) : (encPush b s).mode = s.mode := by
  simp only [encPush]
  split_ifs <;> rfl

@[simp] theorem decAccept_mode (r : Sym) (s : State) : (decAccept r s).mode = s.mode := by
  simp only [decAccept]
  split_ifs <;> rfl

@[simp] theorem decPush_mode (ch : Byte) (s : State) : (decPush ch s).mode = s.mode := by
  simp only [decPush]
  split_ifs <;> simp

@[simp] theorem chkPush_mode (b : Byte) (s : State) : (chkPush b s).mode = s.mode := rfl

/-- 10_state.md R22: every command that is not a `PUSH` leaves the registers as after reset. -/
theorem effect_eq_freshIn {i : Instr} (h : column i ≠ .push) (s : State) :
    ∃ m items, effect i s = s.freshIn m items := by
  cases i with
  | encPush | decPush | chkPush => exact absurd rfl h
  | sysRst => exact ⟨_, _, State.softReset_eq s⟩
  | encBegin => exact ⟨_, _, encBegin_eq s⟩
  | encEnd =>
    obtain ⟨ds, h⟩ := encEnd_eq_freshIn s
    exact ⟨_, _, h⟩
  | encAbsent => exact ⟨_, _, encAbsent_eq s⟩
  | decBegin => exact ⟨_, _, decBegin_eq s⟩
  | decEnd => exact ⟨_, _, decEnd_eq s⟩
  | decAbsent => exact ⟨_, _, decAbsent_eq s⟩
  | chkBegin => exact ⟨_, _, chkBegin_eq s⟩
  | chkEnd => exact ⟨_, _, chkEnd_eq _ s⟩
  | chkAbsent => exact ⟨_, _, chkAbsent_eq _ s⟩

/-- No effect leads into FAULT: only the legality check does (44_system.md R154). -/
theorem effect_mode_ne_fault (i : Instr) {s : State} (hf : s.mode ≠ .fault) : (effect i s).mode ≠ .fault := by
  cases i with
  | encPush | decPush | chkPush => simpa [effect] using hf
  | encAbsent | decAbsent | chkAbsent => exact hf
  | sysRst | encBegin | encEnd | decBegin | decEnd | chkBegin | chkEnd => exact nofun

/-- A command enters FAULT by raising `BAD_SEQUENCE` and in no other way. -/
theorem exec_enters_fault {i : Instr} {s t : State} (h : exec i s = .next t) (hs : s.mode ≠ .fault)
    (ht : t.mode = .fault) : t = s.freshIn .fault [.term .badSequence] := by
  by_cases hl : legalIn i s.mode = true
  · rw [exec_of_legal hl] at h
    cases h
    exact absurd ht (effect_mode_ne_fault i hs)
  · rw [exec_of_not_legal hl hs] at h
    cases h
    rfl

/-- A step that enters FAULT clears (10_state.md R22, 60_exceptions.md R168). -/
theorem step_enters_fault_cleared {s t : State} (h : step s = .next t) (hs : s.mode ≠ .fault)
    (ht : t.mode = .fault) : t.Cleared := by
  obtain ⟨-, rfl⟩ | ⟨rest, -, rfl⟩ | ⟨w, rest, i, -, -, hx⟩ | ⟨w, rest, why, -, -, hx⟩ := step_cases h
  · exact absurd ht hs
  · cases ht
  · rw [exec_enters_fault hx hs ht]
    exact State.freshIn_cleared ..
  · cases hx.symm.trans (illegalWord_live (s := { s with inputs := rest }) hs)
    exact State.freshIn_cleared ..

/-- Settles O47: a legal command that is not a `PUSH` and an entry into FAULT both answer a `freshIn` state, and
`RESET` answers the reset registers. -/
theorem clearingCommandsClear : Obligations.ClearingCommandsClear := by
  unfold Obligations.ClearingCommandsClear
  refine ⟨fun i s t hl hc h => ?_, fun s t => step_enters_fault_cleared, fun s t rest hi h => ?_⟩
  · obtain ⟨m, items, he⟩ := effect_eq_freshIn hc s
    rw [exec_of_legal hl, he] at h
    cases h
    exact State.freshIn_cleared ..
  · rw [step_reset hi] at h
    cases h
    exact State.reset_cleared rest

/-! ## The ports -/

/-- `STAT[3]` is `ERR` (10_state.md R20). -/
theorem State.stat_getLsbD_three (s : State) : s.stat.getLsbD 3 = s.err := by
  rw [State.stat, BitVec.getLsbD_append]
  simp

/-- `STAT[2:0]` is `MODE` (10_state.md R20). -/
theorem State.stat_extractLsb'_zero_three (s : State) : s.stat.extractLsb' 0 3 = s.mode.code := by
  rw [State.stat, BitVec.extractLsb'_append_eq_right]

/-- A `DATA` item is its payload under `KIND` 0b00 (30_encoding.md R56). -/
theorem Item.word_data (d : Byte) : (Item.data d).word = d.setWidth 10 :=
  (BitVec.setWidth_eq_append (by decide)).symm

/-- Settles O50: the bits of `STAT` from its two parts, a `DATA` item by zero extension, and the finite tables of
R13 and R57 by evaluation. -/
theorem portEncodings : Obligations.PortEncodings := by
  unfold Obligations.PortEncodings
  exact ⟨fun s => ⟨s.stat_getLsbD_three, s.stat_extractLsb'_zero_three⟩, by decide, Item.word_data, by decide⟩

end Sys2Proof.Machine
end

section
/-!
SUPPORT. The repacking of bytes into raw values as arithmetic (20_memory.md R36, 41_encode.md R76 and R77): a mask is a
remainder, a shift a quotient, and disjoint fields put side by side are a sum.
-/

namespace Sys2Proof

theorem toNat_and_mask {w : Nat} (x : BitVec w) {m : BitVec w} {k : Nat} (hm : m.toNat = 2 ^ k - 1) :
    (x &&& m).toNat = x.toNat % 2 ^ k := by
  rw [BitVec.toNat_and, hm, Nat.and_two_pow_sub_one_eq_mod]

theorem toNat_ushiftRight_eq_div {w : Nat} (x : BitVec w) (k : Nat) : (x >>> k).toNat = x.toNat / 2 ^ k := by
  rw [BitVec.toNat_ushiftRight, Nat.shiftRight_eq_div_pow]

/-- Nothing is shifted out at the top, and `y` lies below the shifted `x`. -/
theorem toNat_shiftLeft_or {w k : Nat} {x y : BitVec w} (hx : x.toNat * 2 ^ k < 2 ^ w) (hy : y.toNat < 2 ^ k) :
    (x <<< k ||| y).toNat = x.toNat * 2 ^ k + y.toNat := by
  rw [BitVec.toNat_or, BitVec.toNat_shiftLeft, Nat.shiftLeft_eq, Nat.mod_eq_of_lt hx, ← Nat.shiftLeft_eq,
    Nat.shiftLeft_add_eq_or_of_lt hy]

theorem toNat_append_eq_mul_add {v w : Nat} (x : BitVec v) (y : BitVec w) :
    (x ++ y).toNat = x.toNat * 2 ^ w + y.toNat := by
  rw [BitVec.toNat_append, ← Nat.shiftLeft_add_eq_or_of_lt y.isLt, Nat.shiftLeft_eq]

end Sys2Proof

namespace Sys2Proof.Codec

theorem toNat_raw0 (b0 : Byte) : (raw0 b0).toNat = b0.toNat / 4 := by
  have h0 := b0.isLt
  rw [raw0, BitVec.toNat_setWidth, toNat_ushiftRight_eq_div]
  omega

theorem toNat_raw1 (b0 b1 : Byte) : (raw1 b0 b1).toNat = b0.toNat % 4 * 16 + b1.toNat / 16 := by
  have h1 := b1.isLt
  have hhi : (b0 &&& 3).toNat = b0.toNat % 2 ^ 2 := toNat_and_mask b0 rfl
  have hlo := toNat_ushiftRight_eq_div b1 4
  rw [raw1, BitVec.toNat_setWidth, toNat_shiftLeft_or (by omega) (by omega)]
  omega

theorem toNat_raw2 (b1 b2 : Byte) : (raw2 b1 b2).toNat = b1.toNat % 16 * 4 + b2.toNat / 64 := by
  have h2 := b2.isLt
  have hhi : (b1 &&& 15).toNat = b1.toNat % 2 ^ 4 := toNat_and_mask b1 rfl
  have hlo := toNat_ushiftRight_eq_div b2 6
  rw [raw2, BitVec.toNat_setWidth, toNat_shiftLeft_or (by omega) (by omega)]
  omega

theorem toNat_raw3 (b2 : Byte) : (raw3 b2).toNat = b2.toNat % 64 := by
  have hm : (b2 &&& 63).toNat = b2.toNat % 2 ^ 6 := toNat_and_mask b2 rfl
  rw [raw3, BitVec.toNat_setWidth, hm]
  exact Nat.mod_mod ..

/-- A missing third byte counts as 0 (41_encode.md R77). -/
theorem raw_pair (b0 b1 : Byte) : raw [b0, b1] = [raw0 b0, raw1 b0 b1, raw2 b1 0] := by
  simp [raw, raw2]

/-- A missing second byte counts as 0 (41_encode.md R77). -/
theorem raw_singleton (b0 : Byte) : raw [b0] = [raw0 b0, raw1 b0 0] := by
  simp [raw, raw1]

/-- The four raw values are the 24 bits of the group, most significant first (20_memory.md R36). -/
theorem raw_append_eq (b0 b1 b2 : Byte) :
    (raw0 b0 ++ raw1 b0 b1 ++ raw2 b1 b2 ++ raw3 b2 : BitVec 24) = (b0 ++ b1 ++ b2 : BitVec 24) := by
  apply BitVec.eq_of_toNat_eq
  simp only [toNat_append_eq_mul_add, toNat_raw0, toNat_raw1, toNat_raw2, toNat_raw3]
  omega

/-- Settles O14: each raw value as arithmetic, with a missing byte read as 0 in a remainder; the rules' examples by
evaluation. -/
theorem rawValuesOfAGroup : Obligations.RawValuesOfAGroup := by
  unfold Obligations.RawValuesOfAGroup
  refine ⟨fun b0 b1 b2 => ⟨raw0 b0, raw1 b0 b1, raw2 b1 b2, raw3 b2, rfl, raw_append_eq b0 b1 b2, toNat_raw0 b0,
      toNat_raw1 b0 b1, toNat_raw2 b1 b2, toNat_raw3 b2⟩,
    fun b0 b1 => ⟨raw0 b0, raw1 b0 b1, raw2 b1 0, raw_pair b0 b1, toNat_raw0 b0, toNat_raw1 b0 b1, ?_⟩,
    fun b0 => ⟨raw0 b0, raw1 b0 0, raw_singleton b0, toNat_raw0 b0, ?_⟩, by decide⟩
  · simp [toNat_raw2]
  · simp [toNat_raw1]

end Sys2Proof.Codec
end

section
/-!
SUPPORT. The decoder inverted (30_encoding.md R53, R55): a word is decoded as a command exactly when it is the
command's word, and as illegal exactly when one of R55's checks fails; the rows of R53's table as words; and the
statements about the opcode map and the illegal words.
-/

namespace Sys2Proof

/-! ## The fields of a word -/

theorem toNat_splitWord_unit (w : Word) : (splitWord w).unit.toNat = w.toNat / 4096 := by
  have hw := w.isLt
  simp only [splitWord, BitVec.extractLsb'_toNat, Nat.shiftRight_eq_div_pow]
  omega

theorem toNat_splitWord_fn (w : Word) : (splitWord w).fn.toNat = w.toNat / 256 % 16 := by
  simp only [splitWord, BitVec.extractLsb'_toNat, Nat.shiftRight_eq_div_pow, Nat.reducePow]

theorem toNat_splitWord_data (w : Word) : (splitWord w).data.toNat = w.toNat % 256 := by
  simp only [splitWord, BitVec.extractLsb'_toNat, Nat.shiftRight_zero, Nat.reducePow]

/-- The three fields are all 16 bits of the word (30_encoding.md R51). -/
theorem splitWord_injective : Function.Injective splitWord := by
  intro w w' h
  have hu := toNat_splitWord_unit w
  have hf := toNat_splitWord_fn w
  have hd := toNat_splitWord_data w
  rw [h, toNat_splitWord_unit] at hu
  rw [h, toNat_splitWord_fn] at hf
  rw [h, toNat_splitWord_data] at hd
  apply BitVec.eq_of_toNat_eq
  omega

/-! ## The decoder's answers -/

theorem plainCommand_eq_command_iff {d : Byte} {j i : Instr} :
    plainCommand d j = .command i ↔ d = 0 ∧ j = i := by
  unfold plainCommand
  split <;> simp_all

theorem plainCommand_illegal_iff {d : Byte} {j : Instr} :
    (∃ why, plainCommand d j = .illegal why) ↔ d ≠ 0 := by
  unfold plainCommand
  split <;> simp_all

theorem decodeFrameUnit_eq_command_iff {f : Fields} {b e a i : Instr} {p : Byte → Instr} :
    decodeFrameUnit f b p e a = .command i ↔
      (f.fn = 0 ∧ f.data = 0 ∧ b = i) ∨ (f.fn = 1 ∧ p f.data = i) ∨
      (f.fn = 2 ∧ f.data = 0 ∧ e = i) ∨ (f.fn = 3 ∧ f.data = 0 ∧ a = i) := by
  unfold decodeFrameUnit
  split_ifs <;> simp_all [plainCommand_eq_command_iff]

/-- R55's four cases over the fields. -/
theorem wellFormed_eq_false_iff {f : Fields} : f.wellFormed = false ↔
    4 ≤ f.unit.toNat ∨ (1 ≤ f.unit.toNat ∧ 4 ≤ f.fn.toNat) ∨ (f.unit.toNat = 0 ∧ f.fn.toNat ≠ 1) ∨
    (¬(1 ≤ f.unit.toNat ∧ f.fn.toNat = 1) ∧ f.data.toNat ≠ 0) := by
  simp only [Fields.wellFormed, Fields.unitOk, Fields.functionOk, Fields.sysFunctionOk, Fields.dataOk, Fields.isPush,
    Bool.and_eq_false_iff, Bool.or_eq_false_iff, Bool.not_eq_false', decide_eq_false_iff_not, decide_eq_true_eq]
  omega

theorem decodeFrameUnit_illegal_iff {f : Fields} {b e a : Instr} {p : Byte → Instr} :
    (∃ why, decodeFrameUnit f b p e a = .illegal why) ↔
      4 ≤ f.fn.toNat ∨ (f.fn.toNat ≠ 1 ∧ f.data.toNat ≠ 0) := by
  unfold decodeFrameUnit
  split_ifs with h0 h1 h2 h3
  · simp [plainCommand_illegal_iff, h0, BitVec.toNat_eq]
  · simp [h1]
  · simp [plainCommand_illegal_iff, h2, BitVec.toNat_eq]
  · simp [plainCommand_illegal_iff, h3, BitVec.toNat_eq]
  · have hfn : 4 ≤ f.fn.toNat := by bv_omega
    simp [hfn]

/-- A frame unit's decoding, inverted: it is enough to know the fields of its four words. -/
theorem eq_splitWord_of_decodeFrameUnit {f : Fields} {b e a i : Instr} {p : Byte → Instr}
    (hb : splitWord (encode b) = ⟨f.unit, 0, 0⟩) (hp : ∀ d, splitWord (encode (p d)) = ⟨f.unit, 1, d⟩)
    (he : splitWord (encode e) = ⟨f.unit, 2, 0⟩) (ha : splitWord (encode a) = ⟨f.unit, 3, 0⟩)
    (h : decodeFrameUnit f b p e a = .command i) : f = splitWord (encode i) := by
  obtain ⟨unit, fn, data⟩ := f
  obtain ⟨rfl, rfl, rfl⟩ | ⟨rfl, rfl⟩ | ⟨rfl, rfl, rfl⟩ | ⟨rfl, rfl, rfl⟩ := decodeFrameUnit_eq_command_iff.mp h
  · exact hb.symm
  · exact (hp data).symm
  · exact he.symm
  · exact ha.symm

theorem splitWord_encode_encPush (d : Byte) : splitWord (encode (.encPush d)) = ⟨1, 1, d⟩ := Laws.splitWord_append ..
theorem splitWord_encode_decPush (d : Byte) : splitWord (encode (.decPush d)) = ⟨2, 1, d⟩ := Laws.splitWord_append ..
theorem splitWord_encode_chkPush (d : Byte) : splitWord (encode (.chkPush d)) = ⟨3, 1, d⟩ := Laws.splitWord_append ..

/-- The fields of a word that is decoded as a command are those of the command's word. -/
theorem eq_splitWord_of_decodeFields {f : Fields} {i : Instr} (h : decodeFields f = .command i) :
    f = splitWord (encode i) := by
  obtain ⟨unit, fn, data⟩ := f
  unfold decodeFields at h
  split_ifs at h with h0 hfn h1 h2 h3
  · obtain ⟨hd, rfl⟩ := plainCommand_eq_command_iff.mp h
    subst h0 hfn hd
    rfl
  · subst h1
    exact eq_splitWord_of_decodeFrameUnit rfl splitWord_encode_encPush rfl rfl h
  · subst h2
    exact eq_splitWord_of_decodeFrameUnit rfl splitWord_encode_decPush rfl rfl h
  · subst h3
    exact eq_splitWord_of_decodeFrameUnit rfl splitWord_encode_chkPush rfl rfl h

theorem decode_encode (i : Instr) : decode (encode i) = .command i := by
  cases i with
  | encPush d | decPush d | chkPush d =>
    simp only [decode, splitWord_encode_encPush, splitWord_encode_decPush, splitWord_encode_chkPush]
    rfl
  | _ => rfl

/-- Decoding and encoding agree in both directions (30_encoding.md R53). -/
theorem decode_eq_command_iff {w : Word} {i : Instr} : decode w = .command i ↔ w = encode i := by
  constructor
  · intro h
    exact splitWord_injective (eq_splitWord_of_decodeFields h)
  · rintro rfl
    exact decode_encode i

theorem decodeFrameUnit_illegal_iff_wellFormed {f : Fields} {b e a : Instr} {p : Byte → Instr}
    (hlo : 1 ≤ f.unit.toNat) (hhi : f.unit.toNat ≤ 3) :
    (∃ why, decodeFrameUnit f b p e a = .illegal why) ↔ f.wellFormed = false := by
  rw [decodeFrameUnit_illegal_iff, wellFormed_eq_false_iff]
  omega

/-- The decoder finds a word illegal exactly when one of R55's checks fails (`Fields.wellFormed`, which is written
apart from the decoder). -/
theorem decodeFields_illegal_iff {f : Fields} :
    (∃ why, decodeFields f = .illegal why) ↔ f.wellFormed = false := by
  unfold decodeFields
  split_ifs with h0 hfn h1 h2 h3
  · rw [plainCommand_illegal_iff, wellFormed_eq_false_iff]
    simp [h0, hfn, BitVec.toNat_eq]
  · have hfn' : f.fn.toNat ≠ 1 := by simpa [BitVec.toNat_eq] using hfn
    simp [wellFormed_eq_false_iff, h0, hfn']
  · exact decodeFrameUnit_illegal_iff_wellFormed (by simp [h1]) (by simp [h1])
  · exact decodeFrameUnit_illegal_iff_wellFormed (by simp [h2]) (by simp [h2])
  · exact decodeFrameUnit_illegal_iff_wellFormed (by simp [h3]) (by simp [h3])
  · have hu : 4 ≤ f.unit.toNat := by bv_omega
    simp [wellFormed_eq_false_iff, hu]

/-! ## The rows of the opcode map -/

/-- Under the full mask a word selects a row by being its pattern. -/
theorem and_fullMask_eq_iff (w p : Word) : w &&& 0xFFFF = p ↔ w = p := by
  have h : (0xFFFF : Word) = BitVec.allOnes 16 := rfl
  rw [h, BitVec.and_allOnes]

/-- Under the mask of a `PUSH` a word selects a row by its upper byte. -/
theorem and_upperMask_eq_iff (w : Word) (u : Byte) : w &&& 0xFF00 = u ++ 0#8 ↔ w = u ++ w.setWidth 8 := by
  have hmask : (0xFF00 : Word) = BitVec.allOnes 8 ++ 0#8 := rfl
  obtain ⟨u', d, rfl⟩ : ∃ u' d : Byte, w = u' ++ d :=
    ⟨w.extractLsb' 8 8, w.extractLsb' 0 8, (BitVec.extractLsb'_append_extractLsb' (w := 8) (len := 8)).symm⟩
  rw [hmask, BitVec.and_append, BitVec.and_allOnes, BitVec.and_zero, BitVec.setWidth_append_eq_right,
    BitVec.append_left_inj, BitVec.append_left_inj]

/-- A word selects a row exactly when it is the word of the row's command with its `DATA` field. -/
theorem selects_iff_eq_encode (w : Word) :
    ∀ r ∈ opcodeRows, r.selects w ↔ w = encode (r.command (w.setWidth 8)) := by
  simp only [opcodeRows, List.forall_mem_cons, List.not_mem_nil, false_imp_iff, implies_true, and_true,
    OpcodeRow.selects]
  have full := and_fullMask_eq_iff w
  have upper := and_upperMask_eq_iff w
  exact ⟨full _, full _, upper 0x11, full _, full _, full _, upper 0x21, full _, full _, full _, upper 0x31, full _,
    full _⟩

/-- Every command stands in a row. -/
theorem exists_row_of_command (i : Instr) : ∃ r ∈ opcodeRows, r.command ((encode i).setWidth 8) = i := by
  cases i with
  | encPush d | decPush d | chkPush d =>
    have hd (u : Byte) : BitVec.setWidth 8 (u ++ d) = d := BitVec.setWidth_append_eq_right
    simp [opcodeRows, encode, hd]
  | _ => simp [opcodeRows]

theorem opcodeRows_pairwise_command_ne (d : Byte) :
    opcodeRows.Pairwise fun r r' => r.command d ≠ r'.command d := by
  simp [opcodeRows]

theorem selects_iff_decode (w : Word) :
    ∀ r ∈ opcodeRows, r.selects w ↔ decode w = .command (r.command (w.setWidth 8)) := by
  intro r hr
  rw [selects_iff_eq_encode w r hr, decode_eq_command_iff]

/-- No word selects two rows: it would be decoded as two commands. -/
theorem opcodeRows_pairwise_disjoint (w : Word) :
    opcodeRows.Pairwise fun r r' => ¬(r.selects w ∧ r'.selects w) := by
  refine (opcodeRows_pairwise_command_ne (w.setWidth 8)).imp_of_mem ?_
  intro r r' hr hr' hne ⟨h, h'⟩
  rw [selects_iff_decode w r hr] at h
  rw [selects_iff_decode w r' hr', h] at h'
  exact hne (Decoded.command.inj h')

theorem selects_none_iff_illegal (w : Word) :
    (∀ r ∈ opcodeRows, ¬r.selects w) ↔ ∃ why, decode w = .illegal why := by
  constructor
  · intro hnone
    rcases hd : decode w with i | why
    · obtain rfl := decode_eq_command_iff.mp hd
      obtain ⟨r, hr, hi⟩ := exists_row_of_command i
      exact absurd ((selects_iff_decode _ r hr).mpr (by rw [hi, hd])) (hnone r hr)
    · exact ⟨why, rfl⟩
  · rintro ⟨why, hill⟩ r hr hsel
    rw [selects_iff_decode w r hr, hill] at hsel
    cases hsel

/-- Settles O7: a row's pattern and mask say that the word is that of the row's command, and a word is decoded as
at most one command. -/
theorem opcodeMapDecodes : Obligations.OpcodeMapDecodes := by
  unfold Obligations.OpcodeMapDecodes
  exact ⟨rfl, fun w => ⟨selects_iff_decode w, opcodeRows_pairwise_disjoint w, selects_none_iff_illegal w⟩⟩

/-! ## The illegal words -/

/-- R55's four cases over the word as a number. -/
theorem decode_illegal_iff (w : Word) : (∃ why, decode w = .illegal why) ↔
    4 ≤ w.toNat / 4096 ∨
    (1 ≤ w.toNat / 4096 ∧ w.toNat / 4096 ≤ 3 ∧ 4 ≤ w.toNat / 256 % 16) ∨
    (w.toNat / 4096 = 0 ∧ w.toNat / 256 % 16 ≠ 1) ∨
    (¬(1 ≤ w.toNat / 4096 ∧ w.toNat / 4096 ≤ 3 ∧ w.toNat / 256 % 16 = 1) ∧ w.toNat % 256 ≠ 0) := by
  rw [decode, decodeFields_illegal_iff, wellFormed_eq_false_iff, toNat_splitWord_unit, toNat_splitWord_fn,
    toNat_splitWord_data]
  omega

end Sys2Proof

namespace Sys2Proof.Machine

/-- Settles O8: which words are illegal by R55's checks, and what one does by the step on an illegal word. -/
theorem illegalWordsRaiseIllegalCmd : Obligations.IllegalWordsRaiseIllegalCmd := by
  unfold Obligations.IllegalWordsRaiseIllegalCmd
  refine ⟨decode_illegal_iff, ⟨.reservedSysFunction, rfl⟩, fun s w rest why hi hd => ?_⟩
  rw [step_illegal hi hd]
  exact ⟨illegalWord_live (s := { s with inputs := rest }), illegalWord_fault (s := { s with inputs := rest })⟩

end Sys2Proof.Machine
end

section
/-!
SUPPORT. The ALPHA unit (40_alphabet.md): `INV` is the inverse of `ALPHA` (R68), whose codes are read off `INV`'s
table, ordered by code (R67, R69); the substitution and its inverse are addition and subtraction of the position in
6-bit arithmetic (R70 to R72).
-/

namespace Sys2Proof

/-! ## The two tables -/

/-- `INV` lists every symbol under its index (40_alphabet.md R69). -/
theorem lookup_invTable_symbolAt : ∀ i : Sym, invTable.lookup (symbolAt i) = some i := by decide

/-- `INV` lists nothing but symbols (40_alphabet.md R69). -/
theorem symbolAt_of_mem_invTable : ∀ e ∈ invTable, symbolAt e.2 = e.1 :=
  List.map_inj_left.mp (by decide : invTable.map (fun e => symbolAt e.2) = invTable.map Prod.fst)

theorem mem_invTable_symbolAt (i : Sym) : (symbolAt i, i) ∈ invTable := by
  obtain ⟨l₁, l₂, hl, -⟩ := List.lookup_eq_some_iff.mp (lookup_invTable_symbolAt i)
  exact hl ▸ List.mem_append_cons_self

theorem exists_symbolAt_iff_mem_keys {ch : Byte} : (∃ i : Sym, symbolAt i = ch) ↔ ch ∈ invTable.map Prod.fst := by
  rw [List.mem_map]
  constructor
  · rintro ⟨i, rfl⟩
    exact ⟨_, mem_invTable_symbolAt i, rfl⟩
  · rintro ⟨e, he, rfl⟩
    exact ⟨e.2, symbolAt_of_mem_invTable e he⟩

/-- The codes of `INV`'s table in its order: `-`, the digits, the upper-case letters, `_`, the lower-case letters. -/
theorem invTable_keys_toNat : (invTable.map Prod.fst).map BitVec.toNat =
    0x2D :: List.range' 0x30 10 ++ List.range' 0x41 26 ++ 0x5F :: List.range' 0x61 26 := by decide

/-- The codes of the alphabet (40_alphabet.md R67). -/
theorem exists_symbolAt_iff {ch : Byte} : (∃ i : Sym, symbolAt i = ch) ↔
    (0x61 ≤ ch.toNat ∧ ch.toNat ≤ 0x7A) ∨ (0x41 ≤ ch.toNat ∧ ch.toNat ≤ 0x5A) ∨
    (0x30 ≤ ch.toNat ∧ ch.toNat ≤ 0x39) ∨ ch = 0x2D ∨ ch = 0x5F := by
  rw [exists_symbolAt_iff_mem_keys, ← List.mem_map_of_injective fun _ _ => BitVec.eq_of_toNat_eq,
    invTable_keys_toNat]
  simp only [List.mem_append, List.mem_cons, List.mem_range'_1]
  bv_omega

/-! ## The entries of `INV` and `indexOf` -/

@[simp] theorem invValid_append (i : Sym) : invValid (1#1 ++ i) = true := by
  rw [invValid, BitVec.getLsbD_append]
  rfl

@[simp] theorem invIdx_append (i : Sym) : invIdx (1#1 ++ i) = i :=
  BitVec.extractLsb'_append_eq_right

@[simp] theorem invRom_symbolAt (i : Sym) : invRom (symbolAt i) = 1#1 ++ i := by
  simp only [invRom, lookup_invTable_symbolAt]

/-- A code without a symbol is not listed in `INV`. -/
theorem invRom_of_not_symbol {ch : Byte} (h : ∀ i : Sym, symbolAt i ≠ ch) : invRom ch = 0 := by
  have hnone : invTable.lookup ch = none := by
    rw [List.lookup_eq_none_iff]
    intro e he
    simpa using (symbolAt_of_mem_invTable e he ▸ h e.2).symm
  simp only [invRom, hnone]

@[simp] theorem indexOf_symbolAt (i : Sym) : indexOf (symbolAt i) = some i := by
  simp [indexOf]

theorem indexOf_of_not_symbol {ch : Byte} (h : ∀ i : Sym, symbolAt i ≠ ch) : indexOf ch = none := by
  rw [indexOf, invRom_of_not_symbol h]
  rfl

theorem symbolAt_injective : Function.Injective symbolAt := by
  intro i j h
  have hij := congrArg indexOf h
  rwa [indexOf_symbolAt, indexOf_symbolAt, Option.some_inj] at hij

/-- Settles O10: the table against the string by evaluation; distinct because `indexOf` is a left inverse; the codes
are read off `INV`'s table. -/
theorem alphabetTableContent : Obligations.AlphabetTableContent := by
  unfold Obligations.AlphabetTableContent
  exact ⟨rfl, by decide, fun _ _ h => symbolAt_injective h, fun _ => exists_symbolAt_iff⟩

/-- Settles O11: a symbol's code is listed in `INV` under its index, and no other code is listed. -/
theorem indexOfInvertsSymbolAt : Obligations.IndexOfInvertsSymbolAt := by
  unfold Obligations.IndexOfInvertsSymbolAt
  refine fun ch => ⟨?_, fun h => ⟨indexOf_of_not_symbol h, invRom_of_not_symbol h⟩⟩
  rintro i rfl
  exact ⟨indexOf_symbolAt i, invRom_symbolAt i⟩

/-! ## The substitution -/

theorem toNat_subst (c : Nat) (v : Sym) : (subst c v).toNat = (c + v.toNat) % 64 := by
  simp [subst]

/-- The negative difference is lifted by 64 (40_alphabet.md R71). -/
theorem toNat_unsubst (c : Nat) (i : Sym) : (unsubst c i).toNat = (i.toNat + 64 - c % 64) % 64 := by
  have hi := i.isLt
  simp only [unsubst, BitVec.toNat_ofNat]
  split_ifs <;> omega

/-- The datapath over the 6-bit `POS` (40_alphabet.md R70). -/
theorem substPos_ofNat (c : Nat) (v : Sym) : substPos (BitVec.ofNat 6 c) v = subst c v := by
  apply BitVec.eq_of_toNat_eq
  rw [toNat_subst, substPos, BitVec.toNat_add, BitVec.toNat_ofNat, Nat.mod_add_mod]

/-- The datapath over the 6-bit `POS` (40_alphabet.md R71). -/
theorem unsubstPos_ofNat (c : Nat) (i : Sym) : unsubstPos (BitVec.ofNat 6 c) i = unsubst c i := by
  apply BitVec.eq_of_toNat_eq
  rw [toNat_unsubst, unsubstPos, BitVec.toNat_sub, BitVec.toNat_ofNat]
  omega

@[simp] theorem subst_zero_left (v : Sym) : subst 0 v = v :=
  (substPos_ofNat 0 v).symm.trans (BitVec.zero_add v)

@[simp] theorem unsubst_zero_left (i : Sym) : unsubst 0 i = i :=
  (unsubstPos_ofNat 0 i).symm.trans (BitVec.sub_zero i)

/-- Positions 64 apart have the same 6-bit `POS`. -/
theorem ofNat_add_sixtyFour (c : Nat) : BitVec.ofNat 6 (c + 64) = BitVec.ofNat 6 c := by
  apply BitVec.eq_of_toNat_eq
  simp

theorem subst_add_sixtyFour (c : Nat) (v : Sym) : subst (c + 64) v = subst c v := by
  rw [← substPos_ofNat, ofNat_add_sixtyFour, substPos_ofNat]

theorem unsubst_add_sixtyFour (c : Nat) (i : Sym) : unsubst (c + 64) i = unsubst c i := by
  rw [← unsubstPos_ofNat, ofNat_add_sixtyFour, unsubstPos_ofNat]

@[simp] theorem unsubstPos_substPos (pos v : Sym) : unsubstPos pos (substPos pos v) = v :=
  (congrArg (· - pos) (BitVec.add_comm pos v)).trans (BitVec.add_sub_cancel v pos)

@[simp] theorem substPos_unsubstPos (pos i : Sym) : substPos pos (unsubstPos pos i) = i :=
  (BitVec.add_comm pos (i - pos)).trans (BitVec.sub_add_cancel i pos)

@[simp] theorem unsubst_subst (c : Nat) (v : Sym) : unsubst c (subst c v) = v := by
  rw [← unsubstPos_ofNat, ← substPos_ofNat, unsubstPos_substPos]

@[simp] theorem subst_unsubst (c : Nat) (i : Sym) : subst c (unsubst c i) = i := by
  rw [← unsubstPos_ofNat, ← substPos_ofNat, substPos_unsubstPos]

theorem subst_injective (c : Nat) : Function.Injective (subst c) :=
  Function.LeftInverse.injective (unsubst_subst c)

/-- Settles O12: both as arithmetic and as the datapath over `POS`, which depends on the position modulo 64; the
rules' examples by evaluation. -/
theorem substitutionIsModulo64 : Obligations.SubstitutionIsModulo64 := by
  unfold Obligations.SubstitutionIsModulo64
  exact fun c v => ⟨toNat_subst c v, substPos_ofNat c v, toNat_unsubst c v, unsubstPos_ofNat c v, subst_zero_left v,
    toNat_subst c 0, subst_add_sixtyFour c v, unsubst_zero_left v, unsubst_add_sixtyFour c v, by decide⟩

/-- Settles O13: `symbolAt` and `subst c` both have an inverse, hence so has their composition. -/
theorem substitutionInverseLaws : Obligations.SubstitutionInverseLaws := by
  unfold Obligations.SubstitutionInverseLaws
  intro c
  refine ⟨indexOf_symbolAt, unsubst_subst c, subst_unsubst c, fun v => ?_, fun v v' h => ?_, fun i => ?_⟩
  · rw [indexOf_symbolAt, Option.map_some, unsubst_subst]
  · exact subst_injective c (symbolAt_injective h)
  · exact ⟨unsubst c i, by rw [subst_unsubst]⟩

end Sys2Proof
end

section
/-!
SUPPORT. Traces without the port: while every command is legal, a run over the words of a trace is the composition of
its commands' effects (30_encoding.md R60, 44_system.md R154), which neither read nor change what the host will still
present.
-/

namespace Sys2Proof.Machine

/-! ## Word and legality of one command -/

theorem hasWord_encode (i : Instr) : HasWord i (encode i) := ⟨rfl, decode_encode i⟩

/-- A word given by its two bytes, in the form the rules of a `PUSH` write it (30_encoding.md R53). -/
theorem append_eq_or_setWidth (u d : Byte) : (u ++ d : Word) = (u ++ 0#8) ||| d.setWidth 16 := by
  have hd : d.setWidth 16 = (0#8 ++ d : Word) := BitVec.setWidth_eq_append (by decide)
  rw [hd, BitVec.or_append, BitVec.or_zero, BitVec.zero_or]

theorem legalOnlyIn_of_legalMode {i : Instr} {m : Mode} (h : legalMode i = some m) : LegalOnlyIn i m := by
  intro s
  rw [exec_eq_inMode h]
  exact ⟨inMode_fault, inMode_bad⟩

/-- In its mode a command answers its effect. -/
theorem exec_of_mode {i : Instr} {m : Mode} {s : State} (h : legalMode i = some m) (hs : s.mode = m) :
    exec i s = .next (effect i s) :=
  exec_of_legal ((legalIn_eq_true_iff h _).mpr hs)

/-! ## A legal trace -/

/-- The effects of a trace's commands, one after the other. -/
def runEffects : List Instr → State → State
  | [], s => s
  | i :: t, s => runEffects t (effect i s)

/-- Every command of the trace is legal in the mode in which it is taken (30_encoding.md R52). -/
def LegalAlong : List Instr → State → Prop
  | [], _ => True
  | i :: t, s => legalIn i s.mode = true ∧ LegalAlong t (effect i s)

/-- No effect reads or changes what the host will still present. -/
theorem effect_with_inputs (i : Instr) (s : State) (l : List Input) :
    effect i { s with inputs := l } = { effect i s with inputs := l } := by
  cases i with
  | sysRst =>
    simp only [effect, State.softReset_eq]
    rfl
  | encPush b =>
    simp only [effect, encPush]
    split_ifs <;> rfl
  | encEnd =>
    simp only [effect, encEnd, encTail]
    split_ifs <;> rfl
  | decPush ch =>
    simp only [effect, decPush, decAccept]
    split_ifs <;> rfl
  | encBegin | encAbsent | decBegin | decEnd | decAbsent | chkBegin | chkPush | chkEnd | chkAbsent => rfl

/-- The step on the first word of a trace. -/
theorem step_traceInputs_cons (i : Instr) (t : List Instr) (s : State) (rest : List Input) :
    step { s with inputs := traceInputs (i :: t) ++ rest } = exec i { s with inputs := traceInputs t ++ rest } :=
  step_command rfl (decode_encode i)

theorem run_with_traceInputs {t : List Instr} {s : State} (rest : List Input) (hl : LegalAlong t s) :
    Sys2Proof.core.run t.length { s with inputs := traceInputs t ++ rest } =
      .next { runEffects t s with inputs := rest } := by
  induction t generalizing s with
  | nil => rfl
  | cons i t ih =>
    obtain ⟨hi, ht⟩ := hl
    have hstep : step { s with inputs := traceInputs (i :: t) ++ rest } =
        .next { effect i s with inputs := traceInputs t ++ rest } := by
      rw [step_traceInputs_cons, ← effect_with_inputs]
      exact exec_of_legal hi
    rw [List.length_cons, run_succ hstep]
    exact ih ht

/-- A run over the words of a legal trace is the composition of its commands' effects. -/
theorem run_trace {t : List Instr} {s : State} {rest : List Input} (hi : s.inputs = traceInputs t ++ rest)
    (hl : LegalAlong t s) :
    Sys2Proof.core.run t.length s = .next { runEffects t s with inputs := rest } := by
  rw [← run_with_traceInputs rest hl, ← hi]

/-- The pushes and the `END` of a frame are legal where the frame is open. -/
theorem legalAlong_frame_body {push : Byte → Instr} {end_ : Instr} {m : Mode}
    (hpush : ∀ x, legalMode (push x) = some m) (hkeep : ∀ x s, (effect (push x) s).mode = s.mode)
    (hend : legalMode end_ = some m) (b : List Byte) {s : State} (hs : s.mode = m) :
    LegalAlong (b.map push ++ [end_]) s := by
  induction b generalizing s with
  | nil => exact ⟨(legalIn_eq_true_iff hend _).mpr hs, trivial⟩
  | cons x b ih => exact ⟨(legalIn_eq_true_iff (hpush x) _).mpr hs, ih ((hkeep x s).trans hs)⟩

end Sys2Proof.Machine
end

section
/-!
SUPPORT. The function `encode` (41_encode.md section 1): the symbol at every position (R78), and `raw` cut at a
whole number of groups (R79).
-/

namespace Sys2Proof.Codec

theorem encode_some_of_ne_nil {b : List Byte} (hb : b ≠ []) : encode (some b) = symbolsFrom 0 (raw b) := by
  obtain ⟨x, t, rfl⟩ := List.exists_cons_of_ne_nil hb
  rfl

@[simp] theorem length_symbolsFrom (c : Nat) (vs : List Sym) : (symbolsFrom c vs).length = vs.length := by
  induction vs generalizing c with
  | nil => rfl
  | cons v vs ih => simp [symbolsFrom, ih]

theorem symbolsFrom_append (c : Nat) (vs ws : List Sym) :
    symbolsFrom c (vs ++ ws) = symbolsFrom c vs ++ symbolsFrom (c + vs.length) ws := by
  induction vs generalizing c with
  | nil => rfl
  | cons v vs ih => simp [symbolsFrom, ih, Nat.add_assoc, Nat.add_comm 1]

theorem getElem?_symbolsFrom (c k : Nat) (vs : List Sym) :
    (symbolsFrom c vs)[k]? = vs[k]?.map fun v => symbolAt (subst (c + k) v) := by
  induction vs generalizing c k with
  | nil => rfl
  | cons v vs ih =>
    cases k with
    | zero => rfl
    | succ k => simp [symbolsFrom, ih, Nat.add_assoc, Nat.add_comm 1]

/-- Four raw values per group, one more than the bytes of a remainder. -/
theorem length_raw (b : List Byte) : (raw b).length = (b.length * 4 + 2) / 3 := by
  fun_induction raw b with
  | case1 b0 b1 b2 t ih =>
    simp only [List.length_cons, ih]
    omega
  | case2 | case3 | case4 => simp

/-- The groups before a boundary do not depend on what follows it. -/
theorem raw_append {a : List Byte} (b : List Byte) (ha : a.length % 3 = 0) : raw (a ++ b) = raw a ++ raw b := by
  fun_induction raw a with
  | case1 b0 b1 b2 t ih =>
    have ht : t.length % 3 = 0 := (Nat.add_mod_right ..).symm.trans ha
    simp [raw, ih ht]
  | case2 | case3 => simp at ha
  | case4 => rfl

theorem raw_eq_take_append_drop {g : Nat} {b : List Byte} (hg : 3 * g ≤ b.length) :
    raw b = raw (b.take (3 * g)) ++ raw (b.drop (3 * g)) ∧ (raw (b.take (3 * g))).length = 4 * g := by
  have hlen : (b.take (3 * g)).length = 3 * g := List.length_take_of_le hg
  constructor
  · rw [← raw_append _ (by omega), List.take_append_drop]
  · rw [length_raw, hlen]
    omega

theorem drop_raw {g : Nat} {b : List Byte} (hg : 3 * g ≤ b.length) :
    (raw b).drop (4 * g) = raw (b.drop (3 * g)) := by
  obtain ⟨hsplit, hlen⟩ := raw_eq_take_append_drop hg
  rw [hsplit, List.drop_left' hlen]

theorem take_raw {g : Nat} {b : List Byte} (hg : 3 * g ≤ b.length) :
    (raw b).take (4 * g) = raw (b.take (3 * g)) := by
  obtain ⟨hsplit, hlen⟩ := raw_eq_take_append_drop hg
  rw [hsplit, List.take_left' hlen]

/-- Settles O15: `encode` substitutes `raw` position by position, and a group boundary of the bytes is one of their
raw values. -/
theorem encodeSubstitutesEveryRawValue : Obligations.EncodeSubstitutesEveryRawValue := by
  unfold Obligations.EncodeSubstitutesEveryRawValue
  refine ⟨rfl, rfl, rfl, fun b hb => ⟨fun c => ?_, fun g hg => ?_, ?_⟩⟩
  · rw [encode_some_of_ne_nil hb, getElem?_symbolsFrom, Nat.zero_add]
  · have hthree : 3 * 1 ≤ (b.drop (3 * g)).length := by
      rw [List.length_drop]
      omega
    rw [drop_raw (by omega)]
    exact take_raw hthree
  · exact drop_raw (Nat.mul_div_le ..)

/-- Settles O16: one symbol per raw value. -/
theorem encodeLengthLaw : Obligations.EncodeLengthLaw := by
  unfold Obligations.EncodeLengthLaw
  refine ⟨fun b hb => ?_, rfl, rfl⟩
  have hlen : (encode (some b)).length = (b.length * 4 + 2) / 3 := by
    rw [encode_some_of_ne_nil (List.length_pos_iff.mp hb), length_symbolsFrom, length_raw]
  omega

end Sys2Proof.Codec
end

section
/-!
SUPPORT. The ENC unit (41_encode.md section 2): its datapath as arithmetic, where it forms the raw values of the
function layer; each command's effect as a whole state; and the frame `ENCODE` as the function `encode` (R88).
-/

namespace Sys2Proof.Machine

/-! ## The datapath as arithmetic -/

theorem toNat_encHigh6 (b : Byte) : (encHigh6 b).toNat = b.toNat / 4 := by
  have hb := b.isLt
  simp only [encHigh6, BitVec.extractLsb'_toNat, Nat.shiftRight_eq_div_pow]
  omega

theorem toNat_encJoin2 (carry : BitVec 6) (b : Byte) :
    (encJoin2 carry b).toNat = carry.toNat % 4 * 16 + b.toNat / 16 := by
  have hb := b.isLt
  rw [encJoin2, toNat_append_eq_mul_add]
  simp only [BitVec.extractLsb'_toNat, Nat.shiftRight_eq_div_pow]
  omega

theorem toNat_encJoin4 (carry : BitVec 6) (b : Byte) :
    (encJoin4 carry b).toNat = carry.toNat % 16 * 4 + b.toNat / 64 := by
  have hb := b.isLt
  rw [encJoin4, toNat_append_eq_mul_add]
  simp only [BitVec.extractLsb'_toNat, Nat.shiftRight_eq_div_pow]
  omega

theorem toNat_encLow6 (b : Byte) : (encLow6 b).toNat = b.toNat % 64 := by
  simp only [encLow6, BitVec.extractLsb'_toNat, Nat.shiftRight_zero, Nat.reducePow]

theorem toNat_encKeep2 (b : Byte) : (encKeep2 b).toNat = b.toNat % 4 := by
  simp only [encKeep2, BitVec.toNat_setWidth, BitVec.extractLsb'_toNat, Nat.shiftRight_zero]
  omega

theorem toNat_encKeep4 (b : Byte) : (encKeep4 b).toNat = b.toNat % 16 := by
  simp only [encKeep4, BitVec.toNat_setWidth, BitVec.extractLsb'_toNat, Nat.shiftRight_zero]
  omega

/-! ## The datapath in the rules' shifts and masks (41_encode.md R83, R84) -/

theorem encHigh6_eq (b : Byte) : encHigh6 b = (b >>> 2).setWidth 6 := by
  apply BitVec.eq_of_toNat_eq
  rw [toNat_encHigh6, ← Codec.toNat_raw0, Codec.raw0]

theorem encLow6_eq (b : Byte) : encLow6 b = (b &&& 63).setWidth 6 := by
  apply BitVec.eq_of_toNat_eq
  rw [toNat_encLow6, ← Codec.toNat_raw3, Codec.raw3]

theorem encKeep2_eq (b : Byte) : encKeep2 b = (b &&& 3).setWidth 6 := by
  have hm : (b &&& 3).toNat = b.toNat % 2 ^ 2 := toNat_and_mask b rfl
  apply BitVec.eq_of_toNat_eq
  rw [toNat_encKeep2, BitVec.toNat_setWidth]
  omega

theorem encKeep4_eq (b : Byte) : encKeep4 b = (b &&& 15).setWidth 6 := by
  have hm : (b &&& 15).toNat = b.toNat % 2 ^ 4 := toNat_and_mask b rfl
  apply BitVec.eq_of_toNat_eq
  rw [toNat_encKeep4, BitVec.toNat_setWidth]
  omega

theorem encJoin2_eq (carry : BitVec 6) (b : Byte) :
    encJoin2 carry b = ((carry &&& 3) <<< 4) ||| (b >>> 4).setWidth 6 := by
  have hb := b.isLt
  have hhi : (carry &&& 3).toNat = carry.toNat % 2 ^ 2 := toNat_and_mask carry rfl
  have hlo : ((b >>> 4).setWidth 6).toNat = b.toNat / 16 := by
    rw [BitVec.toNat_setWidth, toNat_ushiftRight_eq_div]
    omega
  apply BitVec.eq_of_toNat_eq
  rw [toNat_encJoin2, toNat_shiftLeft_or (by omega) (by omega)]
  omega

theorem encJoin4_eq (carry : BitVec 6) (b : Byte) :
    encJoin4 carry b = ((carry &&& 15) <<< 2) ||| (b >>> 6).setWidth 6 := by
  have hb := b.isLt
  have hhi : (carry &&& 15).toNat = carry.toNat % 2 ^ 4 := toNat_and_mask carry rfl
  have hlo : ((b >>> 6).setWidth 6).toNat = b.toNat / 64 := by
    rw [BitVec.toNat_setWidth, toNat_ushiftRight_eq_div]
    omega
  apply BitVec.eq_of_toNat_eq
  rw [toNat_encJoin4, toNat_shiftLeft_or (by omega) (by omega)]
  omega

/-- A missing second byte counts as 0 (41_encode.md R77). -/
theorem encTail2_eq_encJoin2 (carry : BitVec 6) : encTail2 carry = encJoin2 carry 0 := rfl

/-- A missing third byte counts as 0 (41_encode.md R77). -/
theorem encTail4_eq_encJoin4 (carry : BitVec 6) : encTail4 carry = encJoin4 carry 0 := rfl

theorem encTail2_eq (carry : BitVec 6) : encTail2 carry = (carry &&& 3) <<< 4 := by
  rw [encTail2_eq_encJoin2, encJoin2_eq]
  exact BitVec.or_zero

theorem encTail4_eq (carry : BitVec 6) : encTail4 carry = (carry &&& 15) <<< 2 := by
  rw [encTail4_eq_encJoin4, encJoin4_eq]
  exact BitVec.or_zero

/-! ## The datapath forms the raw values of the function layer (41_encode.md R87) -/

theorem encHigh6_eq_raw0 (b0 : Byte) : encHigh6 b0 = Codec.raw0 b0 := encHigh6_eq b0

theorem encJoin2_encKeep2 (b0 b1 : Byte) : encJoin2 (encKeep2 b0) b1 = Codec.raw1 b0 b1 := by
  apply BitVec.eq_of_toNat_eq
  rw [toNat_encJoin2, toNat_encKeep2, Codec.toNat_raw1, Nat.mod_mod]

theorem encJoin4_encKeep4 (b1 b2 : Byte) : encJoin4 (encKeep4 b1) b2 = Codec.raw2 b1 b2 := by
  apply BitVec.eq_of_toNat_eq
  rw [toNat_encJoin4, toNat_encKeep4, Codec.toNat_raw2, Nat.mod_mod]

theorem encLow6_eq_raw3 (b2 : Byte) : encLow6 b2 = Codec.raw3 b2 := encLow6_eq b2

/-! ## The effects as whole states -/

/-- 10_state.md R17. -/
theorem cntAfter_eq : ∀ cnt : BitVec 2, cntAfter cnt = BitVec.ofNat 2 (min 2 (cnt.toNat + 1)) := by decide

theorem cntAfter_ne_zero (cnt : BitVec 2) : cntAfter cnt ≠ 0 := by
  unfold cntAfter
  split_ifs <;> decide

theorem encPush_of_phase_zero {s : State} (h : s.phase = 0) (b : Byte) : encPush b s = { s with
    out := s.out ++ [.data (symbolAt (substPos s.pos (encHigh6 b)))]
    pos := s.pos + 1
    carry := encKeep2 b
    phase := 1
    cnt := cntAfter s.cnt } := by
  simp only [encPush, h, if_true]
  rfl

theorem encPush_of_phase_one {s : State} (h : s.phase = 1) (b : Byte) : encPush b s = { s with
    out := s.out ++ [.data (symbolAt (substPos s.pos (encJoin2 s.carry b)))]
    pos := s.pos + 1
    carry := encKeep4 b
    phase := 2
    cnt := cntAfter s.cnt } := by
  simp only [encPush, h, if_true]
  rfl

theorem encPush_of_phase_two {s : State} (h : s.phase = 2) (b : Byte) : encPush b s = { s with
    out := s.out ++ [.data (symbolAt (substPos s.pos (encJoin4 s.carry b))),
      .data (symbolAt (substPos (s.pos + 1) (encLow6 b)))]
    pos := s.pos + 2
    carry := 0
    phase := 0
    cnt := cntAfter s.cnt } := by
  have hpos : s.pos + 1#6 + 1#6 = s.pos + 2#6 := BitVec.add_assoc ..
  simp [encPush, h, State.emitSym, State.emit, hpos]

theorem encEnd_of_cnt_zero {s : State} (h : s.cnt = 0) :
    encEnd s = s.freshIn .idle [.data (symbolAt 0), .term .ok] := by
  simp [encEnd, encTail, h, State.closeFrame_eq, State.freshIn]

theorem encEnd_of_phase_zero {s : State} (hc : s.cnt ≠ 0) (h : s.phase = 0) :
    encEnd s = s.freshIn .idle [.term .ok] := by
  rw [encEnd, encTail, if_neg hc, h]
  rfl

theorem encEnd_of_phase_one {s : State} (hc : s.cnt ≠ 0) (h : s.phase = 1) :
    encEnd s = s.freshIn .idle [.data (symbolAt (substPos s.pos (encTail2 s.carry))), .term .ok] := by
  rw [encEnd, encTail, if_neg hc, if_pos h, State.closeFrame_eq]
  simp [State.freshIn]

theorem encEnd_of_phase_two {s : State} (hc : s.cnt ≠ 0) (h : s.phase = 2) :
    encEnd s = s.freshIn .idle [.data (symbolAt (substPos s.pos (encTail4 s.carry))), .term .ok] := by
  rw [encEnd, encTail, if_neg hc, if_neg (by simp [h]), if_pos h, State.closeFrame_eq]
  simp [State.freshIn]

/-! ## The four commands -/

/-- Settles O30. -/
theorem encBeginOpensFrame : Obligations.EncBeginOpensFrame := by
  unfold Obligations.EncBeginOpensFrame
  refine ⟨hasWord_encode _, legalOnlyIn_of_legalMode rfl, fun s hs => ?_, rfl⟩
  rw [exec_of_mode rfl hs, effect, encBegin_eq]

/-- Settles O31: the effect in each PHASE, its datapath written in the rule's shifts and masks. -/
theorem encPushEmitsSymbols : Obligations.EncPushEmitsSymbols := by
  unfold Obligations.EncPushEmitsSymbols
  refine ⟨fun b => ?_, fun b => legalOnlyIn_of_legalMode rfl, fun b s hs hp => ?_, fun b s hs hp => ?_,
    fun b s hs hp => ?_, rfl⟩
  · have hword : encode (.encPush b) = 0x1100 ||| b.setWidth 16 := append_eq_or_setWidth 0x11 b
    exact hword ▸ hasWord_encode (.encPush b)
  · rw [exec_of_mode rfl hs, effect, encPush_of_phase_zero hp, encHigh6_eq, encKeep2_eq, cntAfter_eq]
    rfl
  · rw [exec_of_mode rfl hs, effect, encPush_of_phase_one hp, encJoin2_eq, encKeep4_eq, cntAfter_eq]
    rfl
  · rw [exec_of_mode rfl hs, effect, encPush_of_phase_two hp, encJoin4_eq, encLow6_eq, cntAfter_eq]
    rfl

/-- Settles O32: the effect for each remainder. -/
theorem encEndFlushesRemainder : Obligations.EncEndFlushesRemainder := by
  unfold Obligations.EncEndFlushesRemainder
  refine ⟨hasWord_encode _, legalOnlyIn_of_legalMode rfl, fun s hs hc => ?_, fun s hs hc hp => ?_,
    fun s hs hc hp => ?_, fun s hs hc hp => ?_, rfl⟩
  · rw [exec_of_mode rfl hs, effect, encEnd_of_cnt_zero hc]
  · rw [exec_of_mode rfl hs, effect, encEnd_of_phase_zero hc hp]
  · rw [exec_of_mode rfl hs, effect, encEnd_of_phase_one hc hp, encTail2_eq]
    rfl
  · rw [exec_of_mode rfl hs, effect, encEnd_of_phase_two hc hp, encTail4_eq]
    rfl

/-- Settles O33. -/
theorem encAbsentReportsOk : Obligations.EncAbsentReportsOk := by
  unfold Obligations.EncAbsentReportsOk
  refine ⟨hasWord_encode _, legalOnlyIn_of_legalMode rfl, fun s hs => ?_, rfl⟩
  rw [exec_of_mode rfl hs, effect, encAbsent_eq, hs]

/-! ## The frame -/

/-- The first push of a group at position `c`. -/
theorem encPush_first_of_group {s : State} {c : Nat} (hphase : s.phase = 0) (hpos : s.pos = BitVec.ofNat 6 c)
    (b0 : Byte) : encPush b0 s = { s with
      out := s.out ++ (Codec.symbolsFrom c [Codec.raw0 b0]).map .data
      pos := BitVec.ofNat 6 (c + 1)
      carry := encKeep2 b0
      phase := 1
      cnt := cntAfter s.cnt } := by
  rw [encPush_of_phase_zero hphase, hpos, substPos_ofNat, encHigh6_eq_raw0, BitVec.ofNat_add]
  rfl

/-- The first two pushes of a group at position `c`. -/
theorem encPush_second_of_group {s : State} {c : Nat} (hphase : s.phase = 0) (hpos : s.pos = BitVec.ofNat 6 c)
    (b0 b1 : Byte) : encPush b1 (encPush b0 s) = { s with
      out := s.out ++ (Codec.symbolsFrom c [Codec.raw0 b0, Codec.raw1 b0 b1]).map .data
      pos := BitVec.ofNat 6 (c + 2)
      carry := encKeep4 b1
      phase := 2
      cnt := 2 } := by
  have hcnt : cntAfter (cntAfter s.cnt) = 2 := if_neg (cntAfter_ne_zero _)
  rw [encPush_first_of_group hphase hpos, encPush_of_phase_one rfl]
  simp [substPos_ofNat, encJoin2_encKeep2, hcnt, Codec.symbolsFrom, ← BitVec.ofNat_add]

/-- The three pushes of a group at position `c` emit its four symbols. -/
theorem encPush_third_of_group {s : State} {c : Nat} (hphase : s.phase = 0) (hpos : s.pos = BitVec.ofNat 6 c)
    (b0 b1 b2 : Byte) : encPush b2 (encPush b1 (encPush b0 s)) = { s with
      out := s.out ++
        (Codec.symbolsFrom c [Codec.raw0 b0, Codec.raw1 b0 b1, Codec.raw2 b1 b2, Codec.raw3 b2]).map .data
      pos := BitVec.ofNat 6 (c + 4)
      carry := 0
      phase := 0
      cnt := 2 } := by
  have hcnt : cntAfter 2#2 = 2#2 := rfl
  rw [encPush_second_of_group hphase hpos, encPush_of_phase_two rfl]
  simp [substPos_ofNat, encJoin4_encKeep4, encLow6_eq_raw3, hcnt, Codec.symbolsFrom, ← BitVec.ofNat_add]

/-- The rest of a frame from a group boundary at position `c`: the symbols of the bytes still to come, and
`TERM(OK)`. With no push at all `ENC.END` would emit `symbolAt(0)` (41_encode.md R84), so there is or was one. -/
theorem runEffects_encode_body (b : List Byte) {s : State} {c : Nat} (hphase : s.phase = 0)
    (hpos : s.pos = BitVec.ofNat 6 c) (hcnt : b = [] → s.cnt ≠ 0) :
    runEffects (b.map .encPush ++ [.encEnd]) s =
      s.freshIn .idle ((Codec.symbolsFrom c (Codec.raw b)).map .data ++ [.term .ok]) := by
  induction b using Codec.raw.induct generalizing s c with
  | case1 b0 b1 b2 t ih =>
    simp only [List.map_cons, List.cons_append, runEffects, effect, encPush_third_of_group hphase hpos]
    rw [ih rfl rfl (by simp)]
    simp [State.freshIn, Codec.raw, Codec.symbolsFrom, Nat.add_assoc]
  | case2 b0 b1 =>
    simp only [List.map_cons, List.map_nil, List.cons_append, List.nil_append, runEffects, effect,
      encPush_second_of_group hphase hpos]
    rw [encEnd_of_phase_two (by simp) rfl, encTail4_eq_encJoin4, encJoin4_encKeep4]
    simp [State.freshIn, Codec.raw_pair, Codec.symbolsFrom, substPos_ofNat]
  | case3 b0 =>
    simp only [List.map_cons, List.map_nil, List.cons_append, List.nil_append, runEffects, effect,
      encPush_first_of_group hphase hpos]
    rw [encEnd_of_phase_one (cntAfter_ne_zero _) rfl, encTail2_eq_encJoin2, encJoin2_encKeep2]
    simp [State.freshIn, Codec.raw_singleton, Codec.symbolsFrom, substPos_ofNat]
  | case4 => exact encEnd_of_phase_zero (hcnt rfl) hphase

/-- The frame `ENCODE` with its input, without the port. -/
theorem runEffects_encodeTrace {s : State} (hs : s.mode = .idle) (input : Option (List Byte)) :
    runEffects (encodeTrace input) s = s.freshIn .idle ((Codec.encode input).map .data ++ [.term .ok]) := by
  match input with
  | none => simp [encodeTrace, runEffects, effect, encAbsent_eq, hs, Codec.encode]
  | some [] => simp [encodeTrace, runEffects, effect, encBegin_eq, encEnd_of_cnt_zero, Codec.encode, State.freshIn]
  | some (x :: t) =>
    have hbody := runEffects_encode_body (x :: t) (s := s.freshIn .enc []) (c := 0) rfl rfl nofun
    rw [encodeTrace, runEffects, effect, encBegin_eq, hbody]
    simp [State.freshIn, Codec.encode]

theorem legalAlong_encodeTrace {s : State} (hs : s.mode = .idle) (input : Option (List Byte)) :
    LegalAlong (encodeTrace input) s := by
  cases input with
  | none => exact ⟨(legalIn_eq_true_iff rfl _).mpr hs, trivial⟩
  | some b =>
    have hbody : LegalAlong (b.map .encPush ++ [.encEnd]) (encBegin s) :=
      legalAlong_frame_body (push := .encPush) (fun _ => rfl) encPush_mode rfl b rfl
    exact ⟨(legalIn_eq_true_iff rfl _).mpr hs, hbody⟩

/-- Settles O57: the run is the composition of the trace's effects, and these emit group by group what `encode`
computes from `raw`. -/
theorem encodeFrameComputesEncode : Obligations.EncodeFrameComputesEncode := by
  unfold Obligations.EncodeFrameComputesEncode
  intro s input rest hs hi
  rw [run_trace hi (legalAlong_encodeTrace hs input), runEffects_encodeTrace hs]
  rfl

end Sys2Proof.Machine
end

section
/-!
SUPPORT. The repacking of raw values into bytes (42_decode.md R106 to R108): each byte as arithmetic, the inverse of
the repacking of 41_encode.md R76 and R77; and `bytesOf` cut at a whole number of groups.
-/

namespace Sys2Proof.Codec

/-! ## The bytes of a group as arithmetic -/

theorem toNat_byte0 (r0 r1 : Sym) : (byte0 r0 r1).toNat = r0.toNat * 4 + r1.toNat / 16 := by
  have h0 : (r0.setWidth 8).toNat = r0.toNat := BitVec.toNat_setWidth_of_le (by decide)
  have hlo : (r1.setWidth 8 >>> 4).toNat = r1.toNat / 2 ^ 4 := by
    rw [toNat_ushiftRight_eq_div, BitVec.toNat_setWidth_of_le (by decide)]
  rw [byte0, toNat_shiftLeft_or (by omega) (by omega)]
  omega

theorem toNat_byte1 (r1 r2 : Sym) : (byte1 r1 r2).toNat = r1.toNat % 16 * 16 + r2.toNat / 4 := by
  have hhi : (r1.setWidth 8 &&& 15).toNat = r1.toNat % 2 ^ 4 := by
    rw [toNat_and_mask (k := 4) _ rfl, BitVec.toNat_setWidth_of_le (by decide)]
  have hlo : (r2.setWidth 8 >>> 2).toNat = r2.toNat / 2 ^ 2 := by
    rw [toNat_ushiftRight_eq_div, BitVec.toNat_setWidth_of_le (by decide)]
  rw [byte1, toNat_shiftLeft_or (by omega) (by omega)]
  omega

theorem toNat_byte2 (r2 r3 : Sym) : (byte2 r2 r3).toNat = r2.toNat % 4 * 64 + r3.toNat := by
  have hhi : (r2.setWidth 8 &&& 3).toNat = r2.toNat % 2 ^ 2 := by
    rw [toNat_and_mask (k := 2) _ rfl, BitVec.toNat_setWidth_of_le (by decide)]
  have hlo : (r3.setWidth 8).toNat = r3.toNat := BitVec.toNat_setWidth_of_le (by decide)
  rw [byte2, toNat_shiftLeft_or (by omega) (by omega)]
  omega

/-- The three bytes are the 24 bits of the group, most significant first (42_decode.md R107). -/
theorem byte_append_eq (r0 r1 r2 r3 : Sym) :
    (byte0 r0 r1 ++ byte1 r1 r2 ++ byte2 r2 r3 : BitVec 24) = (r0 ++ r1 ++ r2 ++ r3 : BitVec 24) := by
  apply BitVec.eq_of_toNat_eq
  simp only [toNat_append_eq_mul_add, toNat_byte0, toNat_byte1, toNat_byte2]
  omega

/-! ## The dropped bits of a remainder -/

theorem toNat_and_dropLow2_div : ∀ r : Sym, (r &&& 0b111100).toNat / 4 = r.toNat / 4 := by decide

theorem toNat_and_dropLow4_div : ∀ r : Sym, (r &&& 0b110000).toNat / 16 = r.toNat / 16 := by decide

/-- Only the upper 2 bits of `r1` reach byte0 (42_decode.md R106). -/
theorem byte0_and_dropLow4 (r0 r1 : Sym) : byte0 r0 (r1 &&& 0b110000) = byte0 r0 r1 := by
  apply BitVec.eq_of_toNat_eq
  rw [toNat_byte0, toNat_byte0, toNat_and_dropLow4_div]

/-- Only the upper 4 bits of `r2` reach byte1 (42_decode.md R106). -/
theorem byte1_and_dropLow2 (r1 r2 : Sym) : byte1 r1 (r2 &&& 0b111100) = byte1 r1 r2 := by
  apply BitVec.eq_of_toNat_eq
  rw [toNat_byte1, toNat_byte1, toNat_and_dropLow2_div]

/-! ## A group and its remainders -/

/-- Settles O19: each byte as arithmetic; the dropped bits lie below the quotient a byte takes; the rules' examples
by evaluation. -/
theorem bytesOfAGroup : Obligations.BytesOfAGroup := by
  unfold Obligations.BytesOfAGroup
  refine ⟨fun r0 r1 r2 r3 => ⟨byte0 r0 r1, byte1 r1 r2, byte2 r2 r3, rfl, byte_append_eq r0 r1 r2 r3,
      toNat_byte0 r0 r1, toNat_byte1 r1 r2, toNat_byte2 r2 r3⟩,
    fun r0 r1 r2 => ⟨byte0 r0 r1, byte1 r1 r2, rfl, toNat_byte0 r0 r1, toNat_byte1 r1 r2⟩,
    fun r0 r1 => ⟨byte0 r0 r1, rfl, toNat_byte0 r0 r1⟩, fun r0 r1 r2 => ?_, fun r0 r1 => ?_, by decide⟩
  · rw [bytesOf, bytesOf, byte1_and_dropLow2]
  · rw [bytesOf, bytesOf, byte0_and_dropLow4]

/-! ## The inverse of `raw` -/

@[simp] theorem byte0_raw (b0 b1 : Byte) : byte0 (raw0 b0) (raw1 b0 b1) = b0 := by
  apply BitVec.eq_of_toNat_eq
  rw [toNat_byte0, toNat_raw0, toNat_raw1]
  omega

@[simp] theorem byte1_raw (b0 b1 b2 : Byte) : byte1 (raw1 b0 b1) (raw2 b1 b2) = b1 := by
  apply BitVec.eq_of_toNat_eq
  rw [toNat_byte1, toNat_raw1, toNat_raw2]
  omega

@[simp] theorem byte2_raw (b1 b2 : Byte) : byte2 (raw2 b1 b2) (raw3 b2) = b2 := by
  apply BitVec.eq_of_toNat_eq
  rw [toNat_byte2, toNat_raw2, toNat_raw3]
  omega

/-- The bits a remainder's last raw value is filled up with are dropped again (41_encode.md R77, 42_decode.md R106). -/
@[simp] theorem bytesOf_raw (b : List Byte) : bytesOf (raw b) = b := by
  induction b using raw.induct with
  | case1 b0 b1 b2 t ih => simp [raw, bytesOf, ih]
  | case2 b0 b1 => simp [raw_pair, bytesOf]
  | case3 b0 => simp [raw_singleton, bytesOf]
  | case4 => rfl

/-! ## Groups -/

theorem length_bytesOf (r : List Sym) : (bytesOf r).length = r.length * 3 / 4 := by
  fun_induction bytesOf r with
  | case1 r0 r1 r2 r3 t ih =>
    simp only [List.length_cons, ih]
    omega
  | case2 | case3 | case4 | case5 => simp

/-- The groups before a boundary do not depend on what follows it. -/
theorem bytesOf_append {a : List Sym} (r : List Sym) (ha : a.length % 4 = 0) :
    bytesOf (a ++ r) = bytesOf a ++ bytesOf r := by
  fun_induction bytesOf a with
  | case1 r0 r1 r2 r3 t ih =>
    have ht : t.length % 4 = 0 := (Nat.add_mod_right ..).symm.trans ha
    simp [bytesOf, ih ht]
  | case2 | case3 | case4 => simp at ha
  | case5 => rfl

theorem bytesOf_eq_take_append_drop {g : Nat} {r : List Sym} (hg : 4 * g ≤ r.length) :
    bytesOf r = bytesOf (r.take (4 * g)) ++ bytesOf (r.drop (4 * g)) ∧ (bytesOf (r.take (4 * g))).length = 3 * g := by
  have hlen : (r.take (4 * g)).length = 4 * g := List.length_take_of_le hg
  constructor
  · rw [← bytesOf_append _ (by omega), List.take_append_drop]
  · rw [length_bytesOf, hlen]
    omega

theorem drop_bytesOf {g : Nat} {r : List Sym} (hg : 4 * g ≤ r.length) :
    (bytesOf r).drop (3 * g) = bytesOf (r.drop (4 * g)) := by
  obtain ⟨hsplit, hlen⟩ := bytesOf_eq_take_append_drop hg
  rw [hsplit, List.drop_left' hlen]

theorem take_bytesOf {g : Nat} {r : List Sym} (hg : 4 * g ≤ r.length) :
    (bytesOf r).take (3 * g) = bytesOf (r.take (4 * g)) := by
  obtain ⟨hsplit, hlen⟩ := bytesOf_eq_take_append_drop hg
  rw [hsplit, List.take_left' hlen]

/-- Settles O20: a group boundary of the raw values is one of their bytes. -/
theorem bytesAreBuiltByGroups : Obligations.BytesAreBuiltByGroups := by
  unfold Obligations.BytesAreBuiltByGroups
  refine fun r _ _ => ⟨fun g hg => ?_, drop_bytesOf (Nat.mul_div_le ..)⟩
  have hfour : 4 * 1 ≤ (r.drop (4 * g)).length := by
    rw [List.length_drop]
    omega
  rw [drop_bytesOf (by omega)]
  exact take_bytesOf hfour

end Sys2Proof.Codec
end

section
/-!
SUPPORT. The function `decode` (42_decode.md section 1): the raw values `rawOf` reads from a string (R103 to R105),
the cases of `decode` by them (R100), and `decode` as the left inverse of `encode` (R118).
-/

namespace Sys2Proof.Codec

/-! ## The raw values of a string -/

theorem rawOf_cons_eq_some_iff {c : Nat} {ch : Byte} {t : List Byte} {r : List Sym} :
    rawOf c (ch :: t) = some r ↔
      ∃ i r', indexOf ch = some i ∧ rawOf (c + 1) t = some r' ∧ unsubst c i :: r' = r := by
  rw [rawOf]
  rcases indexOf ch with _ | i <;> rcases rawOf (c + 1) t with _ | r' <;> simp

/-- One invalid character and there are no raw values (42_decode.md R105). -/
theorem rawOf_eq_none_iff {c : Nat} {s : List Byte} : rawOf c s = none ↔ ∃ ch ∈ s, indexOf ch = none := by
  induction s generalizing c with
  | nil => simp [rawOf]
  | cons ch t ih =>
    rw [List.exists_mem_cons_iff, ← ih (c := c + 1), rawOf]
    rcases indexOf ch with _ | i <;> rcases rawOf (c + 1) t with _ | r <;> simp

theorem exists_rawOf_of_valid (c : Nat) {s : List Byte} (hs : ∀ ch ∈ s, indexOf ch ≠ none) :
    ∃ r, rawOf c s = some r := by
  rw [← Option.ne_none_iff_exists', Ne, rawOf_eq_none_iff]
  rintro ⟨ch, hmem, hch⟩
  exact hs ch hmem hch

theorem length_of_rawOf {c : Nat} {s : List Byte} {r : List Sym} (h : rawOf c s = some r) : r.length = s.length := by
  induction s generalizing c r with
  | nil =>
    cases h
    rfl
  | cons ch t ih =>
    obtain ⟨i, r', -, hr', rfl⟩ := rawOf_cons_eq_some_iff.mp h
    rw [List.length_cons, List.length_cons, ih hr']

/-- The raw value at every position (42_decode.md R104). -/
theorem getElem?_of_rawOf {c : Nat} {s : List Byte} {r : List Sym} (h : rawOf c s = some r) (k : Nat) :
    r[k]? = s[k]?.bind fun ch => (indexOf ch).map (unsubst (c + k)) := by
  induction s generalizing c r k with
  | nil =>
    cases h
    rfl
  | cons ch t ih =>
    obtain ⟨i, r', hi, hr', rfl⟩ := rawOf_cons_eq_some_iff.mp h
    cases k with
    | zero => simp [hi]
    | succ k => simp [ih hr', Nat.add_assoc, Nat.add_comm 1]

theorem rawOf_symbolsFrom (c : Nat) (vs : List Sym) : rawOf c (symbolsFrom c vs) = some vs := by
  induction vs generalizing c with
  | nil => rfl
  | cons v vs ih =>
    exact rawOf_cons_eq_some_iff.mpr ⟨subst c v, vs, indexOf_symbolAt _, ih (c + 1), by rw [unsubst_subst]⟩

/-! ## The cases of `decode` -/

/-- `Error(Char)` comes before `Error(Len)` (42_decode.md R100). -/
theorem decode_of_rawOf_none {s : List Byte} (hs : 2 ≤ s.length) (h : rawOf 0 s = none) :
    decode (some s) = .error .char := by
  match s, hs with
  | c0 :: c1 :: t, _ => simp only [decode, h]

theorem decode_of_rawOf_some {s : List Byte} {r : List Sym} (hs : 2 ≤ s.length) (h : rawOf 0 s = some r) :
    decode (some s) = if s.length % 4 = 1 then .error .len else .present (bytesOf r) := by
  match s, hs with
  | c0 :: c1 :: t, _ => simp only [decode, h, length_of_rawOf h]

/-- Settles O21: whether there are raw values, and how many, decides the case. -/
theorem decodeCases : Obligations.DecodeCases := by
  unfold Obligations.DecodeCases
  refine ⟨rfl, rfl, fun _ => rfl, fun s hs => ⟨fun hinvalid => ?_, fun hvalid hlen => ?_, fun hvalid hlen => ?_⟩⟩
  · exact decode_of_rawOf_none hs (rawOf_eq_none_iff.mpr hinvalid)
  · obtain ⟨r, hr⟩ := exists_rawOf_of_valid 0 hvalid
    rw [decode_of_rawOf_some hs hr, if_pos hlen]
  · obtain ⟨r, hr⟩ := exists_rawOf_of_valid 0 hvalid
    refine ⟨r, length_of_rawOf hr, by rw [decode_of_rawOf_some hs hr, if_neg hlen], fun c ch hc => ?_⟩
    rw [getElem?_of_rawOf hr, hc, Option.bind_some, Nat.zero_add]

/-- Settles O22: the bytes of as many raw values as there are characters. -/
theorem decodeLengthLaw : Obligations.DecodeLengthLaw := by
  unfold Obligations.DecodeLengthLaw
  intro s hs hlen hvalid
  obtain ⟨r, hr⟩ := exists_rawOf_of_valid 0 hvalid
  refine ⟨bytesOf r, by rw [decode_of_rawOf_some hs hr, if_neg hlen], ?_⟩
  rw [length_bytesOf, length_of_rawOf hr]
  -- The two quotients by 4 agree only by residue: `omega` needs the three cases apart.
  have hmod : s.length % 4 = 0 ∨ s.length % 4 = 2 ∨ s.length % 4 = 3 := by omega
  rcases hmod with h | h | h <;> omega

/-! ## The inverse of `encode` -/

/-- The length of an encoding of at least one byte is never 1 modulo 4 (41_encode.md R80). -/
theorem decode_encode_of_ne_nil {b : List Byte} (hb : b ≠ []) : decode (some (encode (some b))) = .present b := by
  have hpos : 1 ≤ b.length := List.length_pos_iff.mpr hb
  have hraw : rawOf 0 (encode (some b)) = some (raw b) := by
    rw [encode_some_of_ne_nil hb, rawOf_symbolsFrom]
  have hlen : (encode (some b)).length = (b.length * 4 + 2) / 3 := by
    rw [← length_of_rawOf hraw, length_raw]
  rw [decode_of_rawOf_some (by omega) hraw, if_neg (by omega), bytesOf_raw]

/-- Settles O23: `rawOf` undoes the substitution and `bytesOf` the repacking; the one symbol of the empty sequence
is a character alone. -/
theorem decodeOfEncodeIsIdentity : Obligations.DecodeOfEncodeIsIdentity := by
  unfold Obligations.DecodeOfEncodeIsIdentity
  refine ⟨fun b => ?_, rfl⟩
  cases b with
  | nil => rfl
  | cons x t => exact decode_encode_of_ne_nil (List.cons_ne_nil x t)

end Sys2Proof.Codec
end

section
/-!
SUPPORT. The DEC unit (42_decode.md section 2): its datapath forms the bytes of the function layer; and each command's
effect as a whole state.
-/

namespace Sys2Proof.Machine

/-! ## The datapath forms the bytes of the function layer (42_decode.md R112) -/

theorem decByte0_eq_byte0 (carry : BitVec 6) (r : Sym) : decByte0 carry r = Codec.byte0 carry r := by
  apply BitVec.eq_of_toNat_eq
  rw [Codec.toNat_byte0, decByte0, toNat_append_eq_mul_add]
  simp only [BitVec.extractLsb'_toNat, Nat.shiftRight_eq_div_pow]
  omega

theorem decByte1_eq_byte1 (carry : BitVec 6) (r : Sym) : decByte1 carry r = Codec.byte1 carry r := by
  apply BitVec.eq_of_toNat_eq
  rw [Codec.toNat_byte1, decByte1, toNat_append_eq_mul_add]
  simp only [BitVec.extractLsb'_toNat, Nat.shiftRight_eq_div_pow]
  omega

theorem decByte2_eq_byte2 (carry : BitVec 6) (r : Sym) : decByte2 carry r = Codec.byte2 carry r := by
  apply BitVec.eq_of_toNat_eq
  rw [Codec.toNat_byte2, decByte2, toNat_append_eq_mul_add]
  simp only [BitVec.extractLsb'_toNat, Nat.shiftRight_eq_div_pow]
  omega

theorem toNat_decKeep4 (r : Sym) : (decKeep4 r).toNat = r.toNat % 16 := toNat_and_mask (k := 4) r rfl

theorem toNat_decKeep2 (r : Sym) : (decKeep2 r).toNat = r.toNat % 4 := toNat_and_mask (k := 2) r rfl

/-- byte1 takes no more of `r1` than `CARRY` keeps. -/
@[simp] theorem byte1_decKeep4 (r1 r2 : Sym) : Codec.byte1 (decKeep4 r1) r2 = Codec.byte1 r1 r2 := by
  apply BitVec.eq_of_toNat_eq
  rw [Codec.toNat_byte1, Codec.toNat_byte1, toNat_decKeep4, Nat.mod_mod]

/-- byte2 takes no more of `r2` than `CARRY` keeps. -/
@[simp] theorem byte2_decKeep2 (r2 r3 : Sym) : Codec.byte2 (decKeep2 r2) r3 = Codec.byte2 r2 r3 := by
  apply BitVec.eq_of_toNat_eq
  rw [Codec.toNat_byte2, Codec.toNat_byte2, toNat_decKeep2, Nat.mod_mod]

/-! ## The datapath in the shifts and masks of 42_decode.md R112 -/

theorem decByte0_eq (carry : BitVec 6) (r : Sym) :
    decByte0 carry r = (carry.setWidth 8 <<< 2) ||| (r >>> 4).setWidth 8 := by
  rw [decByte0_eq_byte0, Codec.byte0, BitVec.setWidth_ushiftRight (by decide)]

theorem decByte1_eq (carry : BitVec 6) (r : Sym) :
    decByte1 carry r = ((carry &&& 15).setWidth 8 <<< 4) ||| (r >>> 2).setWidth 8 := by
  rw [decByte1_eq_byte1, Codec.byte1, BitVec.setWidth_ushiftRight (by decide), BitVec.setWidth_and]
  rfl

theorem decByte2_eq (carry : BitVec 6) (r : Sym) :
    decByte2 carry r = ((carry &&& 3).setWidth 8 <<< 6) ||| r.setWidth 8 := by
  rw [decByte2_eq_byte2, Codec.byte2, BitVec.setWidth_and]
  rfl

/-! ## The effect of `DEC.PUSH` as a whole state -/

theorem decAccept_of_phase_zero {s : State} (h : s.phase = 0) (r : Sym) : decAccept r s = { s with carry := r } := by
  simp only [decAccept, h, if_true]

theorem decAccept_of_phase_one {s : State} (h : s.phase = 1) (r : Sym) : decAccept r s = { s with
    out := s.out ++ [.data (decByte0 s.carry r)], carry := decKeep4 r } := by
  simp [decAccept, h, State.emit]

theorem decAccept_of_phase_two {s : State} (h : s.phase = 2) (r : Sym) : decAccept r s = { s with
    out := s.out ++ [.data (decByte1 s.carry r)], carry := decKeep2 r } := by
  simp [decAccept, h, State.emit]

theorem decAccept_of_phase_three {s : State} (h : s.phase = 3) (r : Sym) : decAccept r s = { s with
    out := s.out ++ [.data (decByte2 s.carry r)], carry := 0 } := by
  simp [decAccept, h, State.emit]

theorem decAccept_err (r : Sym) (s : State) : (decAccept r s).err = s.err := by
  simp only [decAccept]
  split_ifs <;> rfl

/-- The `valid` bit of the entry and `indexOf` say the same (20_memory.md R33, 40_alphabet.md R68). -/
theorem errAfter_invRom (err : Bool) (ch : Byte) : errAfter err (invRom ch) = (err || (indexOf ch).isNone) := by
  rcases h : invValid (invRom ch) <;> simp [errAfter, indexOf, h]

theorem invIdx_of_indexOf {ch : Byte} {i : Sym} (h : indexOf ch = some i) : invIdx (invRom ch) = i := by
  rw [indexOf] at h
  split_ifs at h
  exact Option.some.inj h

/-- A character outside the alphabet, and every character after one. -/
theorem decPush_of_rejected {s : State} {ch : Byte} (h : s.err = true ∨ indexOf ch = none) : decPush ch s = { s with
    err := true
    pos := s.pos + 1
    phase := s.phase + 1
    cnt := cntAfter s.cnt } := by
  have herr : errAfter s.err (invRom ch) = true := by
    rw [errAfter_invRom, Bool.or_eq_true, Option.isNone_iff_eq_none]
    exact h
  simp only [decPush, herr, if_true]

theorem decPush_of_accepted {s : State} {ch : Byte} {i : Sym} (he : s.err = false) (hi : indexOf ch = some i) :
    decPush ch s = { decAccept (unsubstPos s.pos i) s with
      pos := s.pos + 1
      phase := s.phase + 1
      cnt := cntAfter s.cnt } := by
  have herr : errAfter s.err (invRom ch) = false := by
    rw [errAfter_invRom, he, hi]
    rfl
  have hkeep := (decAccept_err (unsubstPos s.pos i) s).trans he
  simp only [decPush, herr, invIdx_of_indexOf hi, Bool.false_eq_true, if_false, hkeep]

/-! ## The status `DEC.END` reports (42_decode.md R115) -/

theorem decStatus_of_cnt_zero {s : State} (h : s.cnt = 0) : decStatus s = .absent := if_pos h

/-- One character alone is never an error (42_decode.md R100 case 2). -/
theorem decStatus_of_cnt_one {s : State} (h : s.cnt = 1) : decStatus s = .ok := by
  simp [decStatus, h]

theorem decStatus_of_err {s : State} (hc : s.cnt = 2) (he : s.err = true) : decStatus s = .errChar := by
  simp [decStatus, hc, he]

theorem decStatus_of_no_err {s : State} (hc : s.cnt = 2) (he : s.err = false) :
    decStatus s = if s.phase = 1 then .errLen else .ok := by
  simp [decStatus, hc, he]

/-! ## The four commands -/

/-- Settles O34. -/
theorem decBeginOpensFrame : Obligations.DecBeginOpensFrame := by
  unfold Obligations.DecBeginOpensFrame
  refine ⟨hasWord_encode _, legalOnlyIn_of_legalMode rfl, fun s hs => ?_, rfl⟩
  rw [exec_of_mode rfl hs, effect, decBegin_eq]

/-- Settles O35: the effect of a rejected character, and of an accepted one in each PHASE with its datapath written
in the rule's shifts and masks. -/
theorem decPushRebuildsBytes : Obligations.DecPushRebuildsBytes := by
  unfold Obligations.DecPushRebuildsBytes
  refine ⟨fun ch => ?_, fun ch => legalOnlyIn_of_legalMode rfl, fun ch s hs h => ?_, fun ch i s hs he hi hp => ?_,
    fun ch i s hs he hi hp => ?_, fun ch i s hs he hi hp => ?_, fun ch i s hs he hi hp => ?_, rfl, rfl⟩
  · have hword : encode (.decPush ch) = 0x2100 ||| ch.setWidth 16 := append_eq_or_setWidth 0x21 ch
    exact hword ▸ hasWord_encode (.decPush ch)
  · rw [exec_of_mode rfl hs, effect, decPush_of_rejected h, cntAfter_eq]
  · rw [exec_of_mode rfl hs, effect, decPush_of_accepted he hi, decAccept_of_phase_zero hp, cntAfter_eq, hp]
    rfl
  · rw [exec_of_mode rfl hs, effect, decPush_of_accepted he hi, decAccept_of_phase_one hp, decByte0_eq, cntAfter_eq,
      hp]
    rfl
  · rw [exec_of_mode rfl hs, effect, decPush_of_accepted he hi, decAccept_of_phase_two hp, decByte1_eq, cntAfter_eq,
      hp]
    rfl
  · rw [exec_of_mode rfl hs, effect, decPush_of_accepted he hi, decAccept_of_phase_three hp, decByte2_eq, cntAfter_eq,
      hp]
    rfl

/-- Settles O36: the status by its cases. -/
theorem decEndReportsStatus : Obligations.DecEndReportsStatus := by
  unfold Obligations.DecEndReportsStatus
  refine ⟨hasWord_encode _, legalOnlyIn_of_legalMode rfl, fun s hs hc => ?_, fun s hs hc => ?_,
    fun s hs hc he => ?_, fun s hs hc he hp => ?_, fun s hs hc he hp => ?_, rfl⟩
  · rw [exec_of_mode rfl hs, effect, decEnd_eq, decStatus_of_cnt_zero hc]
  · rw [exec_of_mode rfl hs, effect, decEnd_eq, decStatus_of_cnt_one hc]
  · rw [exec_of_mode rfl hs, effect, decEnd_eq, decStatus_of_err hc he]
  · rw [exec_of_mode rfl hs, effect, decEnd_eq, decStatus_of_no_err hc he, if_pos hp]
  · rw [exec_of_mode rfl hs, effect, decEnd_eq, decStatus_of_no_err hc he, if_neg hp]

/-- Settles O37: both ways end in the same `freshIn` state. -/
theorem decAbsentReportsAbsent : Obligations.DecAbsentReportsAbsent := by
  unfold Obligations.DecAbsentReportsAbsent
  refine ⟨hasWord_encode _, legalOnlyIn_of_legalMode rfl, fun s hs => ?_, fun s t hs ht => ?_, rfl⟩
  · rw [exec_of_mode rfl hs, effect, decAbsent_eq, hs]
  · rw [exec_of_mode rfl hs, effect, decBegin_eq] at ht
    cases ht
    rw [exec_of_mode rfl rfl, exec_of_mode rfl hs, effect, effect, decEnd_eq, decAbsent_eq, hs,
      decStatus_of_cnt_zero rfl]
    simp [State.freshIn]

end Sys2Proof.Machine
end

section
/-!
SUPPORT. The frame `DECODE` (42_decode.md R117, R119): the registers and `OUT` after any number of pushes, as a function
of the string pushed, and the piece the frame appends, whose result is that of the function `decode`.
-/

namespace Sys2Proof.Machine

/-! ## The raw values a frame accepts -/

/-- The raw values of the characters before the first one outside the alphabet: what `DEC.PUSH` passes on before
`ERR` is set (42_decode.md R112). -/
def acceptedRaw (c : Nat) : List Byte → List Sym
  | [] => []
  | ch :: t =>
    match indexOf ch with
    | some i => unsubst c i :: acceptedRaw (c + 1) t
    | none => []

/-- The bits of raw values that have not yet gone out in a byte (10_state.md R16). -/
def carryOf : List Sym → BitVec 6
  | _ :: _ :: _ :: _ :: t => carryOf t
  | [_, _, r2] => decKeep2 r2
  | [_, r1] => decKeep4 r1
  | [r0] => r0
  | [] => 0

theorem acceptedRaw_of_rawOf {c : Nat} {str : List Byte} {r : List Sym} (h : Codec.rawOf c str = some r) :
    acceptedRaw c str = r := by
  induction str generalizing c r with
  | nil =>
    cases h
    rfl
  | cons ch t ih =>
    obtain ⟨i, r', hi, hr', rfl⟩ := Codec.rawOf_cons_eq_some_iff.mp h
    simp only [acceptedRaw, hi, ih hr']

theorem acceptedRaw_append {c : Nat} {str : List Byte} {r : List Sym} (h : Codec.rawOf c str = some r)
    (u : List Byte) : acceptedRaw c (str ++ u) = r ++ acceptedRaw (c + str.length) u := by
  induction str generalizing c r with
  | nil =>
    cases h
    rfl
  | cons ch t ih =>
    obtain ⟨i, r', hi, hr', rfl⟩ := Codec.rawOf_cons_eq_some_iff.mp h
    simp only [List.cons_append, acceptedRaw, hi, ih hr', List.length_cons, Nat.add_assoc, Nat.add_comm 1]

/-- Nothing is accepted after a rejected character. -/
theorem acceptedRaw_append_of_rejected {c : Nat} {str : List Byte} (h : ∃ ch ∈ str, indexOf ch = none)
    (u : List Byte) : acceptedRaw c (str ++ u) = acceptedRaw c str := by
  induction str generalizing c with
  | nil => simp at h
  | cons ch t ih =>
    rcases hi : indexOf ch with _ | i
    · simp only [List.cons_append, acceptedRaw, hi]
    · have ht : ∃ ch ∈ t, indexOf ch = none := by simpa [hi] using h
      simp only [List.cons_append, acceptedRaw, hi, ih ht]

theorem length_acceptedRaw_le (c : Nat) (str : List Byte) : (acceptedRaw c str).length ≤ str.length := by
  fun_induction acceptedRaw c str with
  | case1 => exact Nat.le_refl _
  | case2 c ch t i hi ih => exact Nat.succ_le_succ ih
  | case3 => exact Nat.zero_le _

/-! ## The frame -/

/-- The state of a DEC frame, opened in `s`, in which the characters of `str` have been pushed (10_state.md R14 to
R18, 42_decode.md R117). -/
def decFrameState (s : State) (str : List Byte) : State where
  mode   := .dec
  pos    := BitVec.ofNat 6 str.length
  phase  := BitVec.ofNat 2 str.length
  carry  := carryOf (acceptedRaw 0 str)
  cnt    := BitVec.ofNat 2 (min 2 str.length)
  err    := (Codec.rawOf 0 str).isNone
  h      := 0
  out    := s.out ++ (Codec.bytesOf (acceptedRaw 0 str)).map .data
  inputs := s.inputs

theorem decFrameState_nil (s : State) : decFrameState s [] = s.freshIn .dec [] := rfl

/-- One more raw value completes a byte of `bytesOf`, unless it is the first of its group. -/
theorem decAccept_append_singleton (r : List Sym) (v : Sym) {s : State} {o : List Item}
    (hphase : s.phase = BitVec.ofNat 2 r.length) (hcarry : s.carry = carryOf r)
    (hout : s.out = o ++ (Codec.bytesOf r).map .data) : decAccept v s = { s with
      carry := carryOf (r ++ [v])
      out := o ++ (Codec.bytesOf (r ++ [v])).map .data } := by
  induction r using Codec.bytesOf.induct generalizing o with
  | case1 r0 r1 r2 r3 t ih =>
    have hgroup : BitVec.ofNat 2 (t.length + 4) = BitVec.ofNat 2 t.length := by
      apply BitVec.eq_of_toNat_eq
      simp
    rw [ih (o := o ++ [.data (Codec.byte0 r0 r1), .data (Codec.byte1 r1 r2), .data (Codec.byte2 r2 r3)])
      (hphase.trans hgroup) hcarry (by simpa [Codec.bytesOf] using hout)]
    simp [carryOf, Codec.bytesOf]
  | case2 r0 r1 r2 =>
    rw [decAccept_of_phase_three hphase, decByte2_eq_byte2, hcarry, hout]
    simp [carryOf, Codec.bytesOf]
  | case3 r0 r1 =>
    rw [decAccept_of_phase_two hphase, decByte1_eq_byte1, hcarry, hout]
    simp [carryOf, Codec.bytesOf]
  | case4 r0 =>
    rw [decAccept_of_phase_one hphase, decByte0_eq_byte0, hcarry, hout]
    simp [carryOf, Codec.bytesOf]
  | case5 =>
    rw [decAccept_of_phase_zero hphase]
    simp [carryOf, Codec.bytesOf, hout]

theorem cntAfter_ofNat_min (n : Nat) : cntAfter (BitVec.ofNat 2 (min 2 n)) = BitVec.ofNat 2 (min 2 (n + 1)) := by
  match n with
  | 0 => rfl
  | n + 1 =>
    have h : min 2 (n + 1 + 1) = 2 := by omega
    have h' : min 2 (n + 1) = 1 ∨ min 2 (n + 1) = 2 := by omega
    rw [h]
    rcases h' with h' | h' <;> rw [h'] <;> rfl

theorem isNone_rawOf_append_singleton (c : Nat) (str : List Byte) (ch : Byte) :
    (Codec.rawOf c (str ++ [ch])).isNone = ((Codec.rawOf c str).isNone || (indexOf ch).isNone) := by
  rw [Bool.eq_iff_iff]
  simp [Codec.rawOf_eq_none_iff, or_and_right, exists_or]

theorem acceptedRaw_append_singleton_of_rejected {c : Nat} {str : List Byte} {ch : Byte}
    (h : (Codec.rawOf c str).isNone = true ∨ indexOf ch = none) :
    acceptedRaw c (str ++ [ch]) = acceptedRaw c str := by
  rcases hr : Codec.rawOf c str with _ | r
  · exact acceptedRaw_append_of_rejected (Codec.rawOf_eq_none_iff.mp hr) _
  · have hch : indexOf ch = none := by simpa [hr] using h
    simp [acceptedRaw_append hr, acceptedRaw_of_rawOf hr, acceptedRaw, hch]

/-- Pushing a character in the frame of `str` gives the frame of `str` with the character. -/
theorem decPush_decFrameState (s : State) (str : List Byte) (ch : Byte) :
    decPush ch (decFrameState s str) = decFrameState s (str ++ [ch]) := by
  have herr := isNone_rawOf_append_singleton 0 str ch
  by_cases hrej : (decFrameState s str).err = true ∨ indexOf ch = none
  · have hraw : (Codec.rawOf 0 (str ++ [ch])).isNone = true := by
      rw [herr, Bool.or_eq_true, Option.isNone_iff_eq_none (o := indexOf ch)]
      exact hrej
    rw [decPush_of_rejected hrej]
    simp [decFrameState, hraw, acceptedRaw_append_singleton_of_rejected hrej, cntAfter_ofNat_min, BitVec.ofNat_add]
  · obtain ⟨hstr, hch⟩ := not_or.mp hrej
    obtain ⟨i, hi⟩ := Option.ne_none_iff_exists'.mp hch
    obtain ⟨r, hr⟩ : ∃ r, Codec.rawOf 0 str = some r := by
      simpa [decFrameState, ← Option.ne_none_iff_exists'] using hstr
    have hacc : acceptedRaw 0 (str ++ [ch]) = r ++ [unsubst str.length i] := by
      simp [acceptedRaw_append hr, acceptedRaw, hi]
    have hphase : (decFrameState s str).phase = BitVec.ofNat 2 r.length := by
      rw [Codec.length_of_rawOf hr]
      rfl
    have hcarry : (decFrameState s str).carry = carryOf r := by
      rw [decFrameState, acceptedRaw_of_rawOf hr]
    have hout : (decFrameState s str).out = s.out ++ (Codec.bytesOf r).map .data := by
      rw [decFrameState, acceptedRaw_of_rawOf hr]
    rw [decPush_of_accepted (Bool.eq_false_of_not_eq_true hstr) hi, decAccept_append_singleton r _ hphase hcarry hout]
    simp [decFrameState, hacc, herr, hi, unsubstPos_ofNat, cntAfter_ofNat_min, BitVec.ofNat_add]

theorem runEffects_decPush (s : State) (pre str : List Byte) (t : List Instr) :
    runEffects (str.map .decPush ++ t) (decFrameState s pre) = runEffects t (decFrameState s (pre ++ str)) := by
  induction str generalizing pre with
  | nil => rw [List.map_nil, List.nil_append, List.append_nil]
  | cons ch str ih =>
    rw [List.map_cons, List.cons_append, runEffects, effect, decPush_decFrameState, ih, List.append_assoc,
      List.singleton_append]

/-- What the frame `DECODE` appends to `OUT`: the bytes completed before the first rejected character, and the
status. -/
def decodePiece : Option (List Byte) → Piece
  | none => ⟨[], .absent⟩
  | some str => ⟨Codec.bytesOf (acceptedRaw 0 str), decStatus (decFrameState State.reset str)⟩

/-- The frame `DECODE` with its input, without the port. -/
theorem runEffects_decodeTrace {s : State} (hs : s.mode = .idle) (input : Option (List Byte)) :
    runEffects (decodeTrace input) s = s.freshIn .idle (decodePiece input).items := by
  cases input with
  | none => simp [decodeTrace, runEffects, effect, decAbsent_eq, hs, decodePiece, Piece.items]
  | some str =>
    have hstatus : decStatus (decFrameState s str) = decStatus (decFrameState State.reset str) := rfl
    rw [decodeTrace, runEffects, effect, decBegin_eq, ← decFrameState_nil, runEffects_decPush, List.nil_append,
      runEffects, runEffects, effect, decEnd_eq, hstatus]
    simp [State.freshIn, decFrameState, decodePiece, Piece.items]

/-- One character alone completes no byte. -/
theorem bytesOf_acceptedRaw_of_length_le_one {str : List Byte} (h : str.length ≤ 1) :
    Codec.bytesOf (acceptedRaw 0 str) = [] := by
  have hle := length_acceptedRaw_le 0 str
  rw [← List.length_eq_zero_iff, Codec.length_bytesOf]
  omega

theorem data_decodePiece {input : Option (List Byte)} (h : (input.getD []).length ≤ 1) :
    (decodePiece input).data = [] := by
  cases input with
  | none => rfl
  | some str => exact bytesOf_acceptedRaw_of_length_le_one h

theorem ofNat_two_eq_one_iff (n : Nat) : BitVec.ofNat 2 n = 1 ↔ n % 4 = 1 := by
  simp [BitVec.toNat_eq]

/-- From two characters on, the status tells the cases of `decode` apart in the same order (42_decode.md R115,
R100). -/
theorem result_decodePiece_of_two_le {str : List Byte} (h : 2 ≤ str.length) :
    (decodePiece (some str)).result = some (Codec.decode (some str)) := by
  have hcnt : (decFrameState State.reset str).cnt = 2 := congrArg (BitVec.ofNat 2) (Nat.min_eq_left h)
  rcases hr : Codec.rawOf 0 str with _ | r
  · have herr : (decFrameState State.reset str).err = true := by rw [decFrameState, hr, Option.isNone_none]
    rw [Codec.decode_of_rawOf_none h hr, decodePiece, decStatus_of_err hcnt herr]
    rfl
  · have herr : (decFrameState State.reset str).err = false := by rw [decFrameState, hr, Option.isNone_some]
    have hphase : (decFrameState State.reset str).phase = 1 ↔ str.length % 4 = 1 := ofNat_two_eq_one_iff _
    rw [Codec.decode_of_rawOf_some h hr, decodePiece, decStatus_of_no_err hcnt herr, acceptedRaw_of_rawOf hr]
    by_cases hlen : str.length % 4 = 1
    · rw [if_pos hlen, if_pos (hphase.mpr hlen)]
      rfl
    · rw [if_neg hlen, if_neg (mt hphase.mp hlen)]
      rfl

theorem result_decodePiece (input : Option (List Byte)) :
    (decodePiece input).result = some (Codec.decode input) := by
  match input with
  | none => rfl
  | some [] => rfl
  | some [ch] =>
    rw [decodePiece, decStatus_of_cnt_one rfl, bytesOf_acceptedRaw_of_length_le_one (str := [ch]) (Nat.le_refl 1)]
    rfl
  | some (c0 :: c1 :: t) => exact result_decodePiece_of_two_le (Nat.le_add_left 2 t.length)

theorem legalAlong_decodeTrace {s : State} (hs : s.mode = .idle) (input : Option (List Byte)) :
    LegalAlong (decodeTrace input) s := by
  cases input with
  | none => exact ⟨(legalIn_eq_true_iff rfl _).mpr hs, trivial⟩
  | some str =>
    have hbody : LegalAlong (str.map .decPush ++ [.decEnd]) (decBegin s) :=
      legalAlong_frame_body (push := .decPush) (fun _ => rfl) decPush_mode rfl str rfl
    exact ⟨(legalIn_eq_true_iff rfl _).mpr hs, hbody⟩

/-- Settles O58: the run is the composition of the trace's effects; each push leads from the frame of a string to
that of one more character, and the piece `DEC.END` closes has the result of `decode`. -/
theorem decodeFrameComputesDecode : Obligations.DecodeFrameComputesDecode := by
  unfold Obligations.DecodeFrameComputesDecode
  intro s input rest hs hi
  refine ⟨decodePiece input, ?_, result_decodePiece input, data_decodePiece⟩
  rw [run_trace hi (legalAlong_decodeTrace hs input), runEffects_decodeTrace hs]
  rfl

end Sys2Proof.Machine
end

section
/-!
SUPPORT. The function `checksumFast` (43_checksum.md section 1): the hash step as arithmetic (R131), the fold of a
sequence of bytes (R132), and the big-endian cut with its six symbols (R134, R135).
-/

namespace Sys2Proof.Codec

/-! ## The hash step -/

theorem toNat_fold (h : Hash) (b : Byte) : (fold h b).toNat = (31 * h.toNat + b.toNat) % 2 ^ 32 := by
  have hb : (b.setWidth 32).toNat = b.toNat := BitVec.toNat_setWidth_of_le (by decide)
  rw [fold, BitVec.toNat_add, BitVec.toNat_mul, hb, Nat.mod_add_mod]
  rfl

/-- `31 * h` as `32 * h - h` (43_checksum.md R131). -/
theorem fold_eq_shiftLeft_sub_add (h : Hash) (b : Byte) : fold h b = (h <<< 5) - h + b.setWidth 32 := by
  have hmul : 31#32 * h = (h <<< 5) - h := by bv_omega
  exact congrArg (· + b.setWidth 32) hmul

/-- Settles O25: the step as arithmetic and by its shift form; the datapath is the same function; the corner cases by
evaluation. -/
theorem hashStepWrapsAt32Bits : Obligations.HashStepWrapsAt32Bits := by
  unfold Obligations.HashStepWrapsAt32Bits
  exact ⟨fun h b => ⟨toNat_fold h b, fold_eq_shiftLeft_sub_add h b, rfl⟩, by decide⟩

/-! ## The fold of a sequence -/

theorem foldAll_cons (h : Hash) (x : Byte) (b : List Byte) : foldAll h (x :: b) = foldAll (fold h x) b := rfl

theorem foldAll_append (h : Hash) (b b' : List Byte) : foldAll h (b ++ b') = foldAll (foldAll h b) b' :=
  List.foldl_append

/-- Zero bytes keep the hash at 0 (43_checksum.md R132). -/
theorem foldAll_zero_replicate (n : Nat) : foldAll 0 (List.replicate n 0) = 0 := by
  induction n with
  | zero => rfl
  | succ n ih =>
    have hzero : fold 0 0 = 0 := rfl
    rw [List.replicate_succ, foldAll_cons, hzero, ih]

/-- The fold from any hash is a polynomial in 31: what the hash was before has the weight of the byte ahead of the
first. -/
theorem toNat_foldAll (h : Hash) (b : List Byte) : (foldAll h b).toNat =
    (h.toNat * 31 ^ b.length + ∑ i : Fin b.length, (b.get i).toNat * 31 ^ (b.length - 1 - i.val)) % 2 ^ 32 := by
  induction b generalizing h with
  | nil => simpa [foldAll] using (Nat.mod_eq_of_lt h.isLt).symm
  | cons x b ih =>
    have hweight (i : Fin b.length) : b.length - (i.val + 1) = b.length - 1 - i.val := by omega
    have hmod : (fold h x).toNat ≡ 31 * h.toNat + x.toNat [MOD 2 ^ 32] := by
      rw [toNat_fold]
      exact Nat.mod_modEq ..
    rw [foldAll_cons, ih]
    refine ((hmod.mul_right _).add_right _).trans (congrArg (· % 2 ^ 32) ?_)
    simp only [List.length_cons, Fin.sum_univ_succ, List.get_cons_succ', List.get_cons_zero, Fin.val_succ, Fin.val_zero,
      Nat.add_sub_cancel, Nat.sub_zero, hweight]
    ring

/-- Settles O26: the closed form is the polynomial from the hash 0; leading zeros keep the hash at 0. -/
theorem contentFoldClosedForm : Obligations.ContentFoldClosedForm := by
  unfold Obligations.ContentFoldClosedForm
  refine ⟨rfl, fun b x => foldAll_append 0 b [x], fun b => ?_, fun n b => ?_, fun salt => rfl, by decide⟩
  · simpa using toNat_foldAll 0 b
  · rw [foldAll_append, foldAll_zero_replicate]

/-! ## The cut and its symbols -/

/-- Settles O27: the byte at bit `k` is the quotient by `2^k`, modulo 256. -/
theorem hashIsCutBigEndian : Obligations.HashIsCutBigEndian := by
  unfold Obligations.HashIsCutBigEndian
  refine ⟨fun h => ?_, by decide⟩
  simp only [cut, List.map_cons, List.map_nil, BitVec.extractLsb'_toNat, Nat.shiftRight_eq_div_pow, pow_zero,
    Nat.div_one, Nat.reducePow]

/-- Four bytes are six symbols (43_checksum.md R135). -/
theorem length_encode_cut (g : Hash) : (encode (some (cut g))).length = 6 := by
  have hne : cut g ≠ [] := List.cons_ne_nil _ _
  have hlen : (cut g).length = 4 := rfl
  rw [encode_some_of_ne_nil hne, length_symbolsFrom, length_raw, hlen]

end Sys2Proof.Codec
end

section
/-!
SUPPORT. The CHK unit (43_checksum.md section 2): each command's effect as a whole state, and the frame `CHECKSUM` as
the function `checksumFast` (R141).
-/

namespace Sys2Proof.Machine

/-! ## The four commands -/

/-- `CHK.PUSH` in the arithmetic of 43_checksum.md R138. -/
theorem chkPush_eq (b : Byte) (s : State) :
    chkPush b s = { s with h := BitVec.ofNat 32 ((31 * s.h.toNat + b.toNat) % 2 ^ 32) } := by
  rw [chkPush, hashStep_eq, ← Codec.toNat_fold, BitVec.ofNat_toNat, BitVec.setWidth_eq]

/-- The empty frame (43_checksum.md R140). -/
theorem chkEnd_chkBegin (salt : List Byte) {s : State} (hs : s.mode = .idle) :
    chkEnd salt (chkBegin s) = chkAbsent salt s := by
  rw [chkEnd_eq, chkBegin_eq, chkAbsent_eq, hs]
  simp [State.freshIn]

/-- Settles O38. -/
theorem chkBeginOpensFrame : Obligations.ChkBeginOpensFrame := by
  unfold Obligations.ChkBeginOpensFrame
  refine ⟨hasWord_encode _, legalOnlyIn_of_legalMode rfl, fun s hs => ?_, rfl⟩
  rw [exec_of_mode rfl hs, effect, chkBegin_eq]

/-- Settles O39: the effect with its hash step as arithmetic. -/
theorem chkPushFoldsByte : Obligations.ChkPushFoldsByte := by
  unfold Obligations.ChkPushFoldsByte
  refine ⟨fun b => ?_, fun b => legalOnlyIn_of_legalMode rfl, fun b s hs => ?_, rfl⟩
  · have hword : encode (.chkPush b) = 0x3100 ||| b.setWidth 16 := append_eq_or_setWidth 0x31 b
    exact hword ▸ hasWord_encode (.chkPush b)
  · rw [exec_of_mode rfl hs, effect, chkPush_eq]

/-- Settles O40: the effect renders the hash with the salt folded in; the example with the empty salt by
evaluation. -/
theorem chkEndRendersSaltedHash : Obligations.ChkEndRendersSaltedHash := by
  unfold Obligations.ChkEndRendersSaltedHash
  refine ⟨hasWord_encode _, legalOnlyIn_of_legalMode rfl, fun s hs => ?_, Codec.length_encode_cut,
    fun s => exec_of_mode rfl, rfl⟩
  rw [exec_of_mode rfl hs, effect, chkEnd_eq]
  rfl

/-- Settles O41: the effect renders the salt alone, as the empty frame does; the example with the empty salt by
evaluation. -/
theorem chkAbsentRendersSaltAlone : Obligations.ChkAbsentRendersSaltAlone := by
  unfold Obligations.ChkAbsentRendersSaltAlone
  refine ⟨hasWord_encode _, legalOnlyIn_of_legalMode rfl, fun s hs => ?_, fun s t hs ht => ?_,
    fun s => exec_of_mode rfl, rfl⟩
  · rw [exec_of_mode rfl hs, effect, chkAbsent_eq, hs]
    rfl
  · rw [exec_of_mode rfl hs, effect] at ht
    cases ht
    rw [exec_of_mode rfl rfl, exec_of_mode rfl hs, effect, effect, chkEnd_chkBegin _ hs]

/-! ## The frame -/

/-- The pushes of a frame fold their bytes into `H` and change nothing else. -/
theorem runEffects_chkPush (b : List Byte) (t : List Instr) (s : State) :
    runEffects (b.map .chkPush ++ t) s = runEffects t { s with h := Codec.foldAll s.h b } := by
  induction b generalizing s with
  | nil => rfl
  | cons x b ih => exact ih (chkPush x s)

/-- The frame `CHECKSUM` with its input, without the port. -/
theorem runEffects_checksumTrace {s : State} (hs : s.mode = .idle) (input : Option (List Byte)) :
    runEffects (checksumTrace input) s =
      s.freshIn .idle ((Codec.checksumFast Config.salt input).map .data ++ [.term .ok]) := by
  cases input with
  | none => simp [checksumTrace, runEffects, effect, chkAbsent_eq, hs, Codec.checksumFast]
  | some b =>
    rw [checksumTrace, runEffects, effect, chkBegin_eq, runEffects_chkPush, runEffects, runEffects, effect, chkEnd_eq]
    simp [State.freshIn, Codec.checksumFast]

theorem legalAlong_checksumTrace {s : State} (hs : s.mode = .idle) (input : Option (List Byte)) :
    LegalAlong (checksumTrace input) s := by
  cases input with
  | none => exact ⟨(legalIn_eq_true_iff rfl _).mpr hs, trivial⟩
  | some b =>
    have hbody : LegalAlong (b.map .chkPush ++ [.chkEnd]) (chkBegin s) :=
      legalAlong_frame_body (push := .chkPush) (fun _ => rfl) chkPush_mode rfl b rfl
    exact ⟨(legalIn_eq_true_iff rfl _).mpr hs, hbody⟩

/-- Settles O59: the run is the composition of the trace's effects; the pushes fold the content into `H`, and
`CHK.END` renders it as `checksumFast` does. -/
theorem checksumFrameComputesChecksum : Obligations.ChecksumFrameComputesChecksum := by
  unfold Obligations.ChecksumFrameComputesChecksum
  intro s input rest hs hi
  rw [run_trace hi (legalAlong_checksumTrace hs input), runEffects_checksumTrace hs]
  rfl

end Sys2Proof.Machine
end

section
/-!
SUPPORT. The top-level step and the modes (44_system.md): the three things a command can do and which modes it is not
legal in (R154, 30_encoding.md R52), the table of mode transitions (R152), and `SYS.RST` (R150).
-/

namespace Sys2Proof.Machine

/-! ## Everything a command can do -/

/-- Only `SYS.RST` is legal in FAULT (30_encoding.md R52). -/
theorem legalIn_fault_iff {i : Instr} : legalIn i .fault = true ↔ i = .sysRst := by
  cases i <;> simp [legalIn, legalMode]

/-- Where a command is misplaced (60_exceptions.md R167): a `BEGIN` or `ABSENT` outside IDLE, a `PUSH` or `END` outside
its own unit's frame. -/
theorem legalIn_ne_true_iff {i : Instr} {m : Mode} : legalIn i m ≠ true ↔
    (column i = .begin_ ∨ column i = .absent) ∧ m ≠ .idle ∨
    (column i = .push ∨ column i = .end_) ∧ unitMode i ≠ some m := by
  cases i <;> simp [legalIn, legalMode, column, unitMode, eq_comm (b := m)]

/-- A command that is not legal in FAULT is ignored there (60_exceptions.md R169). -/
theorem exec_ignored {i : Instr} {s : State} (h : legalIn i s.mode ≠ true) (hf : s.mode = .fault) :
    exec i s = .next s := by
  rcases hl : legalMode i with _ | m
  · simp [legalIn, hl] at h
  · rw [exec_eq_inMode hl, inMode_fault hf]

/-- A command has its effect, is ignored, or raises `BAD_SEQUENCE` (44_system.md R154). -/
theorem exec_cases (i : Instr) (s : State) :
    (legalIn i s.mode = true ∧ exec i s = .next (effect i s)) ∨
    (legalIn i s.mode ≠ true ∧ s.mode = .fault ∧ exec i s = .next s) ∨
    (legalIn i s.mode ≠ true ∧ s.mode ≠ .fault ∧ exec i s = .next (s.freshIn .fault [.term .badSequence])) := by
  by_cases hl : legalIn i s.mode = true
  · exact .inl ⟨hl, exec_of_legal hl⟩
  · by_cases hf : s.mode = .fault
    · exact .inr (.inl ⟨hl, hf, exec_ignored hl hf⟩)
    · exact .inr (.inr ⟨hl, hf, exec_of_not_legal hl hf⟩)

theorem exec_total (i : Instr) (s : State) : ∃ t, exec i s = .next t := by
  obtain ⟨-, h⟩ | ⟨-, -, h⟩ | ⟨-, -, h⟩ := exec_cases i s <;> exact ⟨_, h⟩

/-! ## The step -/

/-- An illegal word always answers a state in FAULT (44_system.md R152, column "illegal word"). -/
theorem illegalWord_leads_to_fault (s : State) : ∃ t, illegalWord s = .next t ∧ t.mode = .fault := by
  by_cases hf : s.mode = .fault
  · exact ⟨s, illegalWord_fault hf, hf⟩
  · exact ⟨_, illegalWord_live hf, rfl⟩

theorem step_total (s : State) : ∃ t, step s = .next t := by
  rcases hi : s.inputs with _ | ⟨w | _, rest⟩
  · exact ⟨_, step_nil hi⟩
  · rcases hd : decode w with i | why
    · rw [step_command hi hd]
      exact exec_total ..
    · rw [step_illegal hi hd]
      exact (illegalWord_leads_to_fault _).imp fun _ h => h.1
  · exact ⟨_, step_reset hi⟩

/-- In FAULT every word but that of `SYS.RST` is taken and ignored (60_exceptions.md R169). -/
theorem step_fault_ignores {s : State} {w : Word} {rest : List Input} (hi : s.inputs = .word w :: rest)
    (hw : w ≠ 0x0100) (hf : s.mode = .fault) : step s = .next { s with inputs := rest } := by
  rcases hd : decode w with i | why
  · have hrst : i ≠ .sysRst := fun h => hw (decode_eq_command_iff.mp (h ▸ hd))
    have hl : legalIn i s.mode ≠ true := by rwa [hf, ne_eq, legalIn_fault_iff]
    rw [step_command hi hd]
    exact exec_ignored (s := { s with inputs := rest }) hl hf
  · rw [step_illegal hi hd]
    exact illegalWord_fault (s := { s with inputs := rest }) hf

/-- Settles O3: a word that selects no row is illegal, and a command has its effect, is ignored in FAULT, or raises
`BAD_SEQUENCE`. -/
theorem stepChecksInOrder : Obligations.StepChecksInOrder := by
  unfold Obligations.StepChecksInOrder
  refine ⟨fun s w rest hi => ⟨?_, step_fault_ignores hi, fun hf hnone => ?_, fun i hf hd hl => ?_,
    fun i _ hd _ => step_command hi hd⟩, step_total, exec_total⟩
  · rintro rfl
    exact step_command hi (decode_encode .sysRst)
  · obtain ⟨why, hd⟩ := (selects_none_iff_illegal w).mp hnone
    rw [step_illegal hi hd]
    exact illegalWord_live (s := { s with inputs := rest }) hf
  · rw [step_command hi hd]
    exact exec_of_not_legal (s := { s with inputs := rest }) (Bool.eq_false_iff.mp hl) hf

/-! ## The table of mode transitions -/

theorem modeTable_rst (u : Option Mode) (m : Mode) : modeTable u .rst m = .idle := by
  cases m <;> rfl

/-- The cells of `BEGIN` and `ABSENT` outside IDLE. -/
theorem modeTable_of_ne_idle {c : Column} {m : Mode} (u : Option Mode) (hc : c = .begin_ ∨ c = .absent)
    (hm : m ≠ .idle) : modeTable u c m = .fault := by
  cases m with
  | idle => exact absurd rfl hm
  | enc | dec | chk | fault => obtain rfl | rfl := hc <;> rfl

/-- The cells of a `PUSH` or `END` of another unit. -/
theorem modeTable_of_other_unit {u : Option Mode} {c : Column} {m : Mode} (hc : c = .push ∨ c = .end_)
    (hu : u ≠ some m) : modeTable u c m = .fault := by
  cases m with
  | idle | fault => obtain rfl | rfl := hc <;> rfl
  | enc | dec | chk => obtain rfl | rfl := hc <;> exact if_neg hu

/-- Where a command is not legal its entry is FAULT: a fault is raised, or the machine stays there. -/
theorem modeTable_of_not_legal {i : Instr} {m : Mode} (h : legalIn i m ≠ true) :
    modeTable (unitMode i) (column i) m = .fault := by
  obtain ⟨hc, hm⟩ | ⟨hc, hu⟩ := legalIn_ne_true_iff.mp h
  · exact modeTable_of_ne_idle _ hc hm
  · exact modeTable_of_other_unit hc hu

/-- Where a command is legal its effect goes to its entry. -/
theorem effect_mode {i : Instr} {s : State} (h : legalIn i s.mode = true) :
    (effect i s).mode = modeTable (unitMode i) (column i) s.mode := by
  rcases hl : legalMode i with _ | m
  · cases eq_sysRst_of_legalMode_eq_none hl
    exact (modeTable_rst _ _).symm
  · have hs : s.mode = m := (legalIn_eq_true_iff hl _).mp h
    rw [hs]
    cases i with
    | sysRst => cases hl
    | encBegin | decBegin | chkBegin | encEnd | decEnd | chkEnd =>
      cases hl
      rfl
    | encAbsent | decAbsent | chkAbsent =>
      cases hl
      exact hs
    | encPush | decPush | chkPush =>
      cases hl
      simpa [effect, modeTable, unitMode, column] using hs

/-- Settles O42: the entry of a legal command is where its effect goes, every other entry is FAULT. -/
theorem modeTransitionTable : Obligations.ModeTransitionTable := by
  unfold Obligations.ModeTransitionTable
  refine ⟨fun i s => ?_, fun s w rest why hi hd => ?_⟩
  · obtain ⟨hl, h⟩ | ⟨hl, hf, h⟩ | ⟨hl, -, h⟩ := exec_cases i s
    · exact ⟨_, h, effect_mode hl⟩
    · exact ⟨_, h, hf.trans (modeTable_of_not_legal hl).symm⟩
    · exact ⟨_, h, (modeTable_of_not_legal hl).symm⟩
  · rw [step_illegal hi hd]
    exact illegalWord_leads_to_fault _

/-! ## `SYS.RST` -/

theorem State.freshIn_of_cleared {s : State} (h : s.Cleared) : s.freshIn s.mode [] = s := by
  obtain ⟨mode, pos, phase, carry, cnt, err, h, out, inputs⟩ := s
  obtain ⟨rfl, rfl, rfl, rfl, rfl, rfl⟩ := h
  simp [State.freshIn]

theorem exec_sysRst_of_open {s : State} (h : s.mode = .enc ∨ s.mode = .dec ∨ s.mode = .chk) :
    exec .sysRst s = .next (s.freshIn .idle [.term .aborted]) := by
  rw [exec_of_legal rfl, effect, State.softReset_eq, if_pos h]

theorem exec_sysRst_of_closed {s : State} (h : s.mode = .idle ∨ s.mode = .fault) :
    exec .sysRst s = .next (s.freshIn .idle []) := by
  have hno : ¬(s.mode = .enc ∨ s.mode = .dec ∨ s.mode = .chk) := by
    obtain h | h := h <;> simp [h]
  rw [exec_of_legal rfl, effect, State.softReset_eq, if_neg hno]

theorem exec_sysRst_of_cleared {s : State} (hm : s.mode = .idle) (hc : s.Cleared) : exec .sysRst s = .next s := by
  rw [exec_sysRst_of_closed (.inl hm), ← hm, State.freshIn_of_cleared hc]

/-- Settles O29: `SYS.RST` answers a cleared state in IDLE, and leaves such a state alone. -/
theorem sysRstAbandonsAndClears : Obligations.SysRstAbandonsAndClears := by
  unfold Obligations.SysRstAbandonsAndClears
  refine ⟨hasWord_encode _, fun _ => exec_sysRst_of_open, fun _ => exec_sysRst_of_closed,
    fun _ => exec_sysRst_of_cleared, fun s t h => ?_⟩
  rw [exec_of_legal rfl, effect, State.softReset_eq] at h
  cases h
  exact exec_sysRst_of_cleared rfl (State.freshIn_cleared ..)

end Sys2Proof.Machine
end

section
/-!
SUPPORT. Exceptions (60_exceptions.md): a misplaced command (R167, R168), what leaves FAULT (R169), and that the ENC
and CHK units raise nothing (R177).
-/

namespace Sys2Proof.Machine

/-! ## A misplaced command -/

/-- Settles O43: the two kinds of misplacement are where the command is not legal, and there the fault is raised. -/
theorem misplacedCommandRaisesBadSequence : Obligations.MisplacedCommandRaisesBadSequence := by
  unfold Obligations.MisplacedCommandRaisesBadSequence
  exact fun i s hf hmisplaced => exec_of_not_legal (legalIn_ne_true_iff.mpr hmisplaced) hf

/-! ## FAULT -/

/-- The low three bits of `STAT` as a truncation (10_state.md R20). -/
theorem State.stat_setWidth_three (s : State) : s.stat.setWidth 3 = s.mode.code := by
  rw [BitVec.setWidth_eq_extractLsb' (by decide), State.stat_extractLsb'_zero_three]

/-- Nothing but the word of `SYS.RST` or `RESET` leaves FAULT (60_exceptions.md R169). -/
theorem step_leaves_fault {s t : State} (h : step s = .next t) (hs : s.mode = .fault) (ht : t.mode ≠ .fault) :
    ∃ rest, s.inputs = .word 0x0100 :: rest ∨ s.inputs = .reset :: rest := by
  rcases hi : s.inputs with _ | ⟨w | _, rest⟩
  · rw [step_nil hi] at h
    cases h
    exact absurd hs ht
  · by_cases hw : w = 0x0100
    · exact ⟨rest, .inl (by rw [hw])⟩
    · rw [step_fault_ignores hi hw hs] at h
      cases h
      exact absurd hs ht
  · exact ⟨rest, .inr rfl⟩

/-- Settles O44. -/
theorem faultModeIsSticky : Obligations.FaultModeIsSticky := by
  unfold Obligations.FaultModeIsSticky
  refine fun s hs => ⟨fun w rest hi hw => step_fault_ignores hi hw hs, ?_, fun t h => step_leaves_fault h hs⟩
  rw [State.stat_setWidth_three, hs]
  rfl

/-! ## The units that raise nothing -/

/-- From `s` to `t`, `OUT` grows by `DATA` items and then by no `TERM` but `OK` (60_exceptions.md R177). -/
def AppendsOnlyOk (s t : State) : Prop :=
  ∃ (ds : List Byte) (ts : List TermCode), t.out = s.out ++ ds.map .data ++ ts.map .term ∧ ∀ c ∈ ts, c = .ok

theorem appendsOnlyOk_of_out_eq {s t : State} {ds : List Byte} (h : t.out = s.out ++ ds.map .data) :
    AppendsOnlyOk s t := ⟨ds, [], by simp [h], by simp⟩

theorem appendsOnlyOk_freshIn_nil (s : State) (m : Mode) : AppendsOnlyOk s (s.freshIn m []) :=
  appendsOnlyOk_of_out_eq (ds := []) rfl

theorem appendsOnlyOk_freshIn_ok (s : State) (m : Mode) (ds : List Byte) :
    AppendsOnlyOk s (s.freshIn m (ds.map .data ++ [.term .ok])) := ⟨ds, [.ok], by simp, by simp⟩

/-- `ENC.PUSH` emits one symbol, or two, whatever `PHASE` is (41_encode.md R83). -/
theorem encPush_out (b : Byte) (s : State) : ∃ ds : List Byte, (encPush b s).out = s.out ++ ds.map .data := by
  simp only [encPush]
  split_ifs
  · exact ⟨[symbolAt (substPos s.pos (encHigh6 b))], rfl⟩
  · exact ⟨[symbolAt (substPos s.pos (encJoin2 s.carry b))], rfl⟩
  · exact ⟨[symbolAt (substPos s.pos (encJoin4 s.carry b)), symbolAt (substPos (s.pos + 1) (encLow6 b))], by simp⟩

/-- No effect of ENC or CHK reports anything but `OK`. -/
theorem appendsOnlyOk_effect {i : Instr} (hu : unitMode i = some .enc ∨ unitMode i = some .chk) (s : State) :
    AppendsOnlyOk s (effect i s) := by
  cases i with
  | sysRst | decBegin | decPush | decEnd | decAbsent => simp [unitMode] at hu
  | encBegin =>
    rw [effect, encBegin_eq]
    exact appendsOnlyOk_freshIn_nil ..
  | encPush b =>
    obtain ⟨ds, h⟩ := encPush_out b s
    exact appendsOnlyOk_of_out_eq h
  | encEnd =>
    obtain ⟨ds, h⟩ := encEnd_eq_freshIn s
    rw [effect, h]
    exact appendsOnlyOk_freshIn_ok ..
  | encAbsent => exact appendsOnlyOk_freshIn_ok s s.mode []
  | chkBegin =>
    rw [effect, chkBegin_eq]
    exact appendsOnlyOk_freshIn_nil ..
  | chkPush => exact appendsOnlyOk_of_out_eq (ds := []) (List.append_nil _).symm
  | chkEnd =>
    rw [effect, chkEnd_eq]
    exact appendsOnlyOk_freshIn_ok ..
  | chkAbsent =>
    rw [effect, chkAbsent_eq]
    exact appendsOnlyOk_freshIn_ok ..

/-- Settles O46: a legal command answers its effect, which does not lead into FAULT and reports nothing but `OK`. -/
theorem encAndChkNeverFail : Obligations.EncAndChkNeverFail := by
  unfold Obligations.EncAndChkNeverFail
  intro i s hu hf hl
  obtain ⟨ds, ts, hout, hok⟩ := appendsOnlyOk_effect hu s
  exact ⟨effect i s, ds, ts, exec_of_legal hl, effect_mode_ne_fault i hf, hout, hok⟩

end Sys2Proof.Machine
end

section
/-!
SUPPORT. The invariant of the registers (10_state.md R23): cleared registers meet it in every mode, so only the three
`PUSH` commands, whose effects do not clear, need an argument of their own.
-/

namespace Sys2Proof.Machine

/-! ## States that meet the invariant -/

/-- Cleared registers meet every clause of R23, whatever the mode. -/
theorem State.Inv.of_cleared {s : State} (h : s.Cleared) : s.Inv := by
  obtain ⟨hpos, hphase, hcarry, hcnt, herr, hh⟩ := h
  refine ⟨fun _ => ⟨hpos, hphase, hcarry, hcnt, herr, hh⟩, fun _ => ?_, fun _ => ?_,
    fun _ => ⟨hpos, hphase, hcarry, hcnt, herr⟩⟩
  · simp [State.EncOk, State.EncCarryOk, hpos, hphase, hcarry, hcnt, herr, hh]
  · simp [State.DecOk, State.DecCarryOk, hpos, hphase, hcarry, hcnt, herr, hh]

theorem State.Inv.of_enc {s : State} (hm : s.mode = .enc) (h : s.EncOk) : s.Inv :=
  ⟨by simp [hm], fun _ => h, by simp [hm], by simp [hm]⟩

theorem State.Inv.of_dec {s : State} (hm : s.mode = .dec) (h : s.DecOk) : s.Inv :=
  ⟨by simp [hm], by simp [hm], fun _ => h, by simp [hm]⟩

theorem State.Inv.of_chk {s : State} (hm : s.mode = .chk) (h : s.ChkOk) : s.Inv :=
  ⟨by simp [hm], by simp [hm], by simp [hm], fun _ => h⟩

/-- R23 does not speak of what the host will still present. -/
theorem State.Inv.with_inputs {s : State} (h : s.Inv) (l : List Input) : State.Inv { s with inputs := l } :=
  ⟨h.closed, h.enc, h.dec, h.chk⟩

/-! ## The three `PUSH` commands -/

/-- 10_state.md R17: `CNT` never is 3. -/
theorem cntAfter_ne_three (cnt : BitVec 2) : cntAfter cnt ≠ 3 := by
  unfold cntAfter
  split_ifs <;> decide

/-- `CNT` is 1 after the first `PUSH` only. -/
theorem eq_zero_of_cntAfter_eq_one {cnt : BitVec 2} (h : cntAfter cnt = 1) : cnt = 0 := by
  by_contra hne
  rw [cntAfter, if_neg hne] at h
  cases h

/-- `ENC.PUSH` leaves in `CARRY` no more bits than the next `PHASE` uses (10_state.md R16). -/
theorem encPush_encOk (b : Byte) {s : State} (h : s.EncOk) : (encPush b s).EncOk := by
  obtain ⟨herr, hh, hphase, -, -, -⟩ := h
  have hcnt := cntAfter_ne_zero s.cnt
  have hcnt3 := cntAfter_ne_three s.cnt
  have hcases : s.phase = 0 ∨ s.phase = 1 ∨ s.phase = 2 := by bv_omega
  rcases hcases with hp | hp | hp
  · have hcarry : (encKeep2 b).toNat < 4 := toNat_encKeep2 b ▸ Nat.mod_lt _ (by decide)
    rw [encPush_of_phase_zero hp]
    exact ⟨herr, hh, Nat.le_succ 1, ⟨nofun, fun _ => hcarry, nofun⟩, hcnt3, fun h0 => absurd h0 hcnt⟩
  · have hcarry : (encKeep4 b).toNat < 16 := toNat_encKeep4 b ▸ Nat.mod_lt _ (by decide)
    rw [encPush_of_phase_one hp]
    exact ⟨herr, hh, Nat.le_refl 2, ⟨nofun, nofun, fun _ => hcarry⟩, hcnt3, fun h0 => absurd h0 hcnt⟩
  · rw [encPush_of_phase_two hp]
    exact ⟨herr, hh, Nat.zero_le 2, ⟨fun _ => rfl, nofun, nofun⟩, hcnt3, fun h0 => absurd h0 hcnt⟩

/-- What an accepted raw value leaves in `CARRY` fits the `PHASE` that follows (10_state.md R16). -/
theorem decAccept_carry_fits (r : Sym) (s : State) :
    (s.phase + 1 = 0 → (decAccept r s).carry = 0) ∧ (s.phase + 1 = 2 → (decAccept r s).carry.toNat < 16) ∧
    (s.phase + 1 = 3 → (decAccept r s).carry.toNat < 4) := by
  refine ⟨fun h => ?_, fun h => ?_, fun h => ?_⟩
  · have hp : s.phase = 3 := by bv_omega
    rw [decAccept_of_phase_three hp]
  · have hp : s.phase = 1 := by bv_omega
    rw [decAccept_of_phase_one hp]
    exact toNat_decKeep4 r ▸ Nat.mod_lt _ (by decide)
  · have hp : s.phase = 2 := by bv_omega
    rw [decAccept_of_phase_two hp]
    exact toNat_decKeep2 r ▸ Nat.mod_lt _ (by decide)

@[simp] theorem decAccept_h (r : Sym) (s : State) : (decAccept r s).h = s.h := by
  simp only [decAccept]
  split_ifs <;> rfl

/-- What `DEC.PUSH` does to the registers it changes in every case (42_decode.md R112). -/
theorem decPush_registers (ch : Byte) (s : State) :
    (decPush ch s).h = s.h ∧ (decPush ch s).pos = s.pos + 1 ∧ (decPush ch s).phase = s.phase + 1 ∧
    (decPush ch s).cnt = cntAfter s.cnt := by
  refine ⟨?_, rfl, rfl, rfl⟩
  simp only [decPush]
  split_ifs <;> simp

/-- While `ERR` stays clear, the character was accepted. -/
theorem decPush_carry_of_err_false {ch : Byte} {s : State} (h : (decPush ch s).err = false) :
    ∃ r : Sym, (decPush ch s).carry = (decAccept r s).carry := by
  by_cases hrej : s.err = true ∨ indexOf ch = none
  · rw [decPush_of_rejected hrej] at h
    cases h
  · obtain ⟨he, hch⟩ := not_or.mp hrej
    obtain ⟨i, hi⟩ := Option.ne_none_iff_exists'.mp hch
    exact ⟨unsubstPos s.pos i, by rw [decPush_of_accepted (Bool.eq_false_of_not_eq_true he) hi]⟩

/-- `DEC.PUSH` advances `PHASE` with `POS`, from 0 at the first character. -/
theorem decPush_decOk (ch : Byte) {s : State} (h : s.DecOk) : (decPush ch s).DecOk := by
  obtain ⟨hh, -, -, hzero, -, hphase⟩ := h
  obtain ⟨hh', hpos', hphase', hcnt'⟩ := decPush_registers ch s
  refine ⟨hh'.trans hh, hcnt' ▸ cntAfter_ne_three s.cnt, fun he => ?_, fun h0 => ?_, fun h1 => ?_, ?_⟩
  · obtain ⟨r, hr⟩ := decPush_carry_of_err_false he
    rw [State.DecCarryOk, hphase', hr]
    exact decAccept_carry_fits r s
  · exact absurd (hcnt' ▸ h0) (cntAfter_ne_zero s.cnt)
  · obtain ⟨hpos, hph, -, -⟩ := hzero (eq_zero_of_cntAfter_eq_one (hcnt' ▸ h1))
    rw [hpos', hphase', hpos, hph]
    exact ⟨rfl, rfl⟩
  · rw [hpos', hphase']
    bv_omega

/-! ## The step -/

/-- A command's effect where it is legal: a `PUSH` keeps its frame's clause, every other command clears. -/
theorem effect_keeps_inv {i : Instr} {s : State} (hl : legalIn i s.mode = true) (h : s.Inv) : (effect i s).Inv := by
  by_cases hc : column i = .push
  · cases i with
    | encPush b =>
      have hs : s.mode = .enc := (legalIn_eq_true_iff rfl _).mp hl
      exact .of_enc ((encPush_mode b s).trans hs) (encPush_encOk b (h.enc hs))
    | decPush ch =>
      have hs : s.mode = .dec := (legalIn_eq_true_iff rfl _).mp hl
      exact .of_dec ((decPush_mode ch s).trans hs) (decPush_decOk ch (h.dec hs))
    | chkPush b =>
      have hs : s.mode = .chk := (legalIn_eq_true_iff rfl _).mp hl
      exact .of_chk hs (h.chk hs)
    | sysRst | encBegin | encEnd | encAbsent | decBegin | decEnd | decAbsent | chkBegin | chkEnd | chkAbsent => cases hc
  · obtain ⟨m, items, he⟩ := effect_eq_freshIn hc s
    rw [he]
    exact .of_cleared (State.freshIn_cleared ..)

theorem exec_keeps_inv {i : Instr} {s t : State} (h : s.Inv) (hx : exec i s = .next t) : t.Inv := by
  obtain ⟨hl, hn⟩ | ⟨-, -, hn⟩ | ⟨-, -, hn⟩ := exec_cases i s <;> cases hx.symm.trans hn
  · exact effect_keeps_inv hl h
  · exact h
  · exact .of_cleared (State.freshIn_cleared ..)

theorem illegalWord_keeps_inv {s t : State} (h : s.Inv) (hx : illegalWord s = .next t) : t.Inv := by
  by_cases hf : s.mode = .fault
  · cases hx.symm.trans (illegalWord_fault hf)
    exact h
  · cases hx.symm.trans (illegalWord_live hf)
    exact .of_cleared (State.freshIn_cleared ..)

/-- Settles O52: after reset the registers are cleared. -/
theorem invariantHoldsAtReset : Obligations.InvariantHoldsAtReset := by
  unfold Obligations.InvariantHoldsAtReset
  exact .of_cleared (State.reset_cleared [])

/-- Settles O53: a step holds the state, clears, or is a `PUSH` in its own frame. -/
theorem stepKeepsInvariant : Obligations.StepKeepsInvariant := by
  unfold Obligations.StepKeepsInvariant
  intro s t h hstep
  obtain ⟨-, rfl⟩ | ⟨rest, -, rfl⟩ | ⟨w, rest, i, -, -, hx⟩ | ⟨w, rest, why, -, -, hx⟩ := step_cases hstep
  · exact h
  · exact .of_cleared (State.reset_cleared rest)
  · exact exec_keeps_inv (h.with_inputs rest) hx
  · exact illegalWord_keeps_inv (h.with_inputs rest) hx

end Sys2Proof.Machine
end

section
/-!
SUPPORT. What `encode` does with a longer input: what is emitted for a beginning of it stays (41_encode.md R89), and
an encoding starts anew at every position that is a multiple of 64 (70_reset_and_hazards.md R196).
-/

namespace Sys2Proof.Codec

/-! ## The beginning of an input -/

theorem symbolsFrom_prefix (c : Nat) {vs ws : List Sym} (h : vs <+: ws) : symbolsFrom c vs <+: symbolsFrom c ws := by
  obtain ⟨us, rfl⟩ := h
  rw [symbolsFrom_append]
  exact List.prefix_append ..

theorem take_symbolsFrom (c k : Nat) (vs : List Sym) : (symbolsFrom c vs).take k = symbolsFrom c (vs.take k) := by
  induction vs generalizing c k with
  | nil => rw [List.take_nil, symbolsFrom, List.take_nil]
  | cons v vs ih =>
    cases k with
    | zero => rfl
    | succ k => simp [symbolsFrom, ih]

/-- A group fixes four raw values. -/
theorem fixedCount_group (b0 b1 b2 : Byte) (t : List Byte) :
    (b0 :: b1 :: b2 :: t).length + (b0 :: b1 :: b2 :: t).length / 3 = t.length + t.length / 3 + 4 := by
  simp only [List.length_cons]
  omega

/-- `n` bytes fix `n + n/3` raw values; only the last value of a remainder also takes bits from the next byte. -/
theorem take_raw_prefix (b b' : List Byte) : (raw b).take (b.length + b.length / 3) <+: raw (b ++ b') := by
  induction b using raw.induct with
  | case1 b0 b1 b2 t ih =>
    rw [fixedCount_group]
    simpa [raw] using ih
  | case2 b0 b1 => cases b' <;> simp [raw]
  | case3 b0 =>
    match b' with
    | [] | [_] | _ :: _ :: _ => simp [raw]
  | case4 => exact List.nil_prefix

theorem length_encode {b : List Byte} (hb : b ≠ []) : (encode (some b)).length = (b.length * 4 + 2) / 3 := by
  rw [encode_some_of_ne_nil hb, length_symbolsFrom, length_raw]

/-- Settles O17: the symbols of the raw values that the bytes so far fix, which are all of them or all but the
last. -/
theorem encodeStreamsByPrefix : Obligations.EncodeStreamsByPrefix := by
  unfold Obligations.EncodeStreamsByPrefix
  intro b b' hb
  have hlen := length_encode hb
  constructor
  · rw [encode_some_of_ne_nil hb, encode_some_of_ne_nil (List.append_ne_nil_of_left_ne_nil hb b'), take_symbolsFrom]
    exact symbolsFrom_prefix 0 (take_raw_prefix b b')
  · split_ifs with hmod
    · exact List.take_of_length_le (by omega)
    · rw [List.dropLast_eq_take]
      congr 1
      omega

/-! ## A whole number of rounds -/

theorem symbolsFrom_add_sixtyFour (c : Nat) (vs : List Sym) : symbolsFrom (c + 64) vs = symbolsFrom c vs := by
  induction vs generalizing c with
  | nil => rfl
  | cons v vs ih => rw [symbolsFrom, symbolsFrom, subst_add_sixtyFour, Nat.add_right_comm, ih]

theorem symbolsFrom_mul_sixtyFour (k : Nat) (vs : List Sym) : symbolsFrom (64 * k) vs = symbolsFrom 0 vs := by
  induction k with
  | zero => rfl
  | succ k ih => rw [Nat.mul_succ, symbolsFrom_add_sixtyFour, ih]

/-- Settles O18: 48 bytes are 64 raw values, and positions 64 apart substitute alike; the example by evaluation. -/
theorem encodeRestartsEverySixtyFour : Obligations.EncodeRestartsEverySixtyFour := by
  unfold Obligations.EncodeRestartsEverySixtyFour
  refine ⟨fun b b' hb hb' hmod => ?_, by decide⟩
  have hrounds : 0 + (raw b).length = 64 * (b.length / 48) := by
    rw [length_raw]
    omega
  rw [encode_some_of_ne_nil hb, encode_some_of_ne_nil hb',
    encode_some_of_ne_nil (List.append_ne_nil_of_left_ne_nil hb b'), raw_append b' (by omega), symbolsFrom_append, hrounds, symbolsFrom_mul_sixtyFour]

end Sys2Proof.Codec
end

section
/-!
SUPPORT. Which strings `encode` gives, and what `decode` makes of them: a checksum decodes to its hash
(43_checksum.md R135), and `decode` accepts strings that no input encodes to (42_decode.md R110).
-/

namespace Sys2Proof.Codec

/-! ## The checksum -/

/-- The content, none when absent, and the salt are folded as one sequence (43_checksum.md R132, R133). -/
theorem checksumFast_eq (salt : List Byte) (content : Option (List Byte)) :
    checksumFast salt content = encode (some (cut (foldAll 0 (content.getD [] ++ salt)))) := by
  rw [foldAll_append]
  cases content <;> rfl

theorem exists_symbolAt_of_mem_symbolsFrom {c : Nat} {vs : List Sym} {ch : Byte} (h : ch ∈ symbolsFrom c vs) :
    ∃ i : Sym, symbolAt i = ch := by
  induction vs generalizing c with
  | nil => cases h
  | cons v vs ih =>
    obtain rfl | ht := List.mem_cons.mp h
    · exact ⟨_, rfl⟩
    · exact ih ht

/-- Settles O28: a checksum is the encoding of four bytes, and `decode` inverts `encode`. -/
theorem checksumDecodesToItsHash : Obligations.ChecksumDecodesToItsHash := by
  unfold Obligations.ChecksumDecodesToItsHash
  intro salt content
  have hne : cut (foldAll 0 (content.getD [] ++ salt)) ≠ [] := List.cons_ne_nil _ _
  rw [checksumFast_eq]
  refine ⟨length_encode_cut _, fun ch hch => ?_, decode_encode_of_ne_nil hne⟩
  rw [encode_some_of_ne_nil hne] at hch
  exact exists_symbolAt_of_mem_symbolsFrom hch

/-! ## Strings no input encodes to -/

/-- Only the empty sequence has a single symbol (41_encode.md R75, R80). -/
theorem encode_ne_singleton {ch : Byte} (hch : ch ≠ symbolAt 0) (b : List Byte) : encode (some b) ≠ [ch] := by
  intro h
  cases b with
  | nil => exact hch (List.head_eq_of_cons_eq h).symm
  | cons x t =>
    have hlen := length_encode (List.cons_ne_nil x t)
    rw [h, List.length_singleton, List.length_cons] at hlen
    omega

/-- Settles O24: the rule's strings by evaluation; a character alone is accepted, and only `symbolAt 0` is an
encoding. -/
theorem decodeAcceptsNonCanonical : Obligations.DecodeAcceptsNonCanonical := by
  unfold Obligations.DecodeAcceptsNonCanonical
  refine ⟨by decide, by decide, by decide, by decide, by decide, fun ch hch => ⟨rfl, fun b => ?_⟩⟩
  exact encode_ne_singleton hch b

end Sys2Proof.Codec
end

section
/-!
SUPPORT. Reset and the step (10_state.md R24, 44_system.md R154): statements that are cases of the step's lemmas, and
the decoder's round trip with its written-out words (30_encoding.md R53).
-/

namespace Sys2Proof.Machine

/-- Settles O1. -/
theorem resetHoldsSpecValues : Obligations.ResetHoldsSpecValues := by
  unfold Obligations.ResetHoldsSpecValues
  exact ⟨rfl, rfl⟩

/-- Settles O2. -/
theorem resetInputRestoresResetState : Obligations.ResetInputRestoresResetState := by
  unfold Obligations.ResetInputRestoresResetState
  exact fun _ _ => step_reset

/-- Settles O4. -/
theorem stepRunsDecodedCommand : Obligations.StepRunsDecodedCommand := by
  unfold Obligations.StepRunsDecodedCommand
  exact fun _ _ _ _ => step_command

/-- Settles O5. -/
theorem stepWithoutEventHoldsState : Obligations.StepWithoutEventHoldsState := by
  unfold Obligations.StepWithoutEventHoldsState
  exact fun _ => step_nil

/-- Settles O6: the decoder inverts the encoder, and a word is determined by its fields. -/
theorem decodeIsInverseOfEncode : Obligations.DecodeIsInverseOfEncode := by
  unfold Obligations.DecodeIsInverseOfEncode
  exact fun _ _ => decode_eq_command_iff

/-- Settles O9: by evaluation. -/
theorem writtenOutWordsDecode : Obligations.WrittenOutWordsDecode := by
  unfold Obligations.WrittenOutWordsDecode
  decide

end Sys2Proof.Machine
end

section
/-!
SUPPORT. What is appended to `OUT`, said once for every command and for the step (60_exceptions.md R171, 10_state.md
R21): `DATA` items inside a frame, or `DATA` items and then one `TERM`. With it the reading of `OUT` in pieces
(30_encoding.md R58), which are whole where no ENC or DEC frame is open (70_reset_and_hazards.md R204).
-/

namespace Sys2Proof.Machine

/-! ## What a command appends -/

/-- From `s` to `t`, `OUT` grows by `DATA` items of an ENC or DEC frame still open, or not at all outside one. -/
def Continues (s t : State) : Prop :=
  ∃ ds : List Byte, t.out = s.out ++ ds.map .data ∧
    (t.mode = .enc ∨ t.mode = .dec ∨ ds = [] ∧ s.mode ≠ .enc ∧ s.mode ≠ .dec)

/-- From `s` to `t`, `OUT` grows by `DATA` items and then `TERM(c)`. -/
def Closes (c : TermCode) (s t : State) : Prop :=
  ∃ ds : List Byte, t.out = s.out ++ ds.map .data ++ [.term c]

theorem Continues.refl (s : State) : Continues s s := by
  refine ⟨[], (List.append_nil _).symm, ?_⟩
  by_cases henc : s.mode = .enc
  · exact .inl henc
  · by_cases hdec : s.mode = .dec
    · exact .inr (.inl hdec)
    · exact .inr (.inr ⟨rfl, henc, hdec⟩)

/-- Outside an ENC or DEC frame, a state with the same `OUT` continues. -/
theorem Continues.of_out_eq {s t : State} (h : t.out = s.out) (henc : s.mode ≠ .enc) (hdec : s.mode ≠ .dec) :
    Continues s t := ⟨[], h.trans (List.append_nil _).symm, .inr (.inr ⟨rfl, henc, hdec⟩)⟩

theorem closes_freshIn (s : State) (m : Mode) (ds : List Byte) (c : TermCode) :
    Closes c s (s.freshIn m (ds.map .data ++ [.term c])) := ⟨ds, (List.append_assoc ..).symm⟩

/-- `DEC.PUSH` emits the byte it completes, if any (42_decode.md R112). -/
theorem decPush_out (ch : Byte) (s : State) : ∃ ds : List Byte, (decPush ch s).out = s.out ++ ds.map .data := by
  simp only [decPush, decAccept]
  split_ifs
  · exact ⟨[], (List.append_nil _).symm⟩
  · exact ⟨[], (List.append_nil _).symm⟩
  · exact ⟨[_], rfl⟩
  · exact ⟨[_], rfl⟩
  · exact ⟨[_], rfl⟩

/-- No frame ends in the code of a protocol fault. -/
theorem decStatus_ne_fault (s : State) : decStatus s ≠ .illegalCmd ∧ decStatus s ≠ .badSequence := by
  unfold decStatus
  split_ifs <;> exact ⟨nofun, nofun⟩

/-- What a legal command appends: no effect reports a protocol fault. -/
theorem effect_output {i : Instr} {s : State} (hl : legalIn i s.mode = true) :
    Continues s (effect i s) ∨ ∃ c, (c ≠ .illegalCmd ∧ c ≠ .badSequence) ∧ Closes c s (effect i s) := by
  cases i with
  | sysRst =>
    rw [effect, State.softReset_eq]
    split_ifs with hopen
    · exact .inr ⟨.aborted, ⟨nofun, nofun⟩, closes_freshIn s .idle [] .aborted⟩
    · exact .inl (.of_out_eq (List.append_nil _) (fun h => hopen (.inl h)) fun h => hopen (.inr (.inl h)))
  | encBegin => exact .inl ⟨[], (List.append_nil _).symm, .inl rfl⟩
  | decBegin => exact .inl ⟨[], (List.append_nil _).symm, .inr (.inl rfl)⟩
  | encPush b =>
    have hs : s.mode = .enc := (legalIn_eq_true_iff rfl _).mp hl
    obtain ⟨ds, h⟩ := encPush_out b s
    exact .inl ⟨ds, h, .inl ((encPush_mode b s).trans hs)⟩
  | decPush ch =>
    have hs : s.mode = .dec := (legalIn_eq_true_iff rfl _).mp hl
    obtain ⟨ds, h⟩ := decPush_out ch s
    exact .inl ⟨ds, h, .inr (.inl ((decPush_mode ch s).trans hs))⟩
  | chkBegin =>
    have hs : s.mode = .idle := (legalIn_eq_true_iff rfl _).mp hl
    exact .inl (.of_out_eq rfl (by simp [hs]) (by simp [hs]))
  | chkPush b =>
    have hs : s.mode = .chk := (legalIn_eq_true_iff rfl _).mp hl
    exact .inl (.of_out_eq rfl (by simp [hs]) (by simp [hs]))
  | encEnd =>
    obtain ⟨ds, h⟩ := encEnd_eq_freshIn s
    rw [effect, h]
    exact .inr ⟨.ok, ⟨nofun, nofun⟩, closes_freshIn ..⟩
  | encAbsent => exact .inr ⟨.ok, ⟨nofun, nofun⟩, closes_freshIn s s.mode [] .ok⟩
  | decEnd => exact .inr ⟨decStatus s, decStatus_ne_fault s, closes_freshIn s .idle [] _⟩
  | decAbsent => exact .inr ⟨.absent, ⟨nofun, nofun⟩, closes_freshIn s s.mode [] .absent⟩
  | chkEnd =>
    rw [effect, chkEnd_eq]
    exact .inr ⟨.ok, ⟨nofun, nofun⟩, closes_freshIn ..⟩
  | chkAbsent =>
    rw [effect, chkAbsent_eq]
    exact .inr ⟨.ok, ⟨nofun, nofun⟩, closes_freshIn ..⟩

theorem exec_output {i : Instr} {s t : State} (hx : exec i s = .next t) : Continues s t ∨ ∃ c, Closes c s t := by
  obtain ⟨hl, hn⟩ | ⟨-, -, hn⟩ | ⟨-, -, hn⟩ := exec_cases i s <;> cases hx.symm.trans hn
  · exact (effect_output hl).imp_right fun ⟨c, _, h⟩ => ⟨c, h⟩
  · exact .inl (.refl s)
  · exact .inr ⟨.badSequence, closes_freshIn s .fault [] .badSequence⟩

theorem illegalWord_output {s t : State} (hx : illegalWord s = .next t) : Continues s t ∨ ∃ c, Closes c s t := by
  by_cases hf : s.mode = .fault
  · cases hx.symm.trans (illegalWord_fault hf)
    exact .inl (.refl s)
  · cases hx.symm.trans (illegalWord_live hf)
    exact .inr ⟨.illegalCmd, closes_freshIn s .fault [] .illegalCmd⟩

/-- What a step appends; only `RESET` takes anything away. -/
theorem step_output {s t : State} (h : step s = .next t) :
    (∃ rest, s.inputs = .reset :: rest ∧ t.out = []) ∨ Continues s t ∨ ∃ c, Closes c s t := by
  obtain ⟨-, rfl⟩ | ⟨rest, hi, rfl⟩ | ⟨w, rest, i, -, -, hx⟩ | ⟨w, rest, why, -, -, hx⟩ := step_cases h
  · exact .inr (.inl (.refl t))
  · exact .inl ⟨rest, hi, rfl⟩
  · exact .inr (exec_output (s := { s with inputs := rest }) hx)
  · exact .inr (illegalWord_output (s := { s with inputs := rest }) hx)

/-- Settles O45: a command continues or closes, and either way what stands in `OUT` stays. -/
theorem oneCommandAddsAtMostOneTerm : Obligations.OneCommandAddsAtMostOneTerm := by
  unfold Obligations.OneCommandAddsAtMostOneTerm
  refine ⟨fun i s t hx => ?_, fun s t h => ?_⟩
  · obtain ⟨ds, hout, -⟩ | ⟨c, ds, hout⟩ := exec_output hx
    · exact ⟨ds, [], hout.trans (List.append_nil _).symm, Nat.zero_le 1⟩
    · exact ⟨ds, [c], hout, Nat.le_refl 1⟩
  · obtain ⟨rest, hi, -⟩ | ⟨ds, hout, -⟩ | ⟨c, ds, hout⟩ := step_output h
    · exact .inl ⟨rest, hi⟩
    · exact .inr ⟨_, hout.symm⟩
    · exact .inr ⟨_, (List.append_assoc ..).symm.trans hout.symm⟩

/-! ## What a command does not read or change -/

/-- The items a command's effect appends to `OUT`. -/
def emitted (i : Instr) (s : State) : List Item := (effect i { s with out := [] }).out

/-- No effect reads `OUT`: it appends the same items to any. -/
theorem effect_with_out (i : Instr) (s : State) (o : List Item) :
    effect i { s with out := o } = { effect i s with out := o ++ emitted i s } := by
  cases i with
  | sysRst =>
    simp only [emitted, effect, State.softReset_eq]
    rfl
  | encBegin => simp [emitted, effect, encBegin_eq, State.freshIn]
  | decBegin => simp [emitted, effect, decBegin_eq, State.freshIn]
  | chkBegin => simp [emitted, effect, chkBegin_eq, State.freshIn]
  | chkPush b => simp [emitted, effect, chkPush]
  | encPush b =>
    simp only [emitted, effect, encPush]
    split_ifs <;> simp [State.emitSym, State.emit]
  | encEnd =>
    simp only [emitted, effect, encEnd, encTail]
    split_ifs <;> simp [State.closeFrame_eq, State.freshIn]
  | decPush ch =>
    simp only [emitted, effect, decPush, decAccept]
    split_ifs <;> simp [State.emit]
  | encAbsent | decEnd | decAbsent => rfl
  | chkEnd =>
    simp only [emitted, effect, chkEnd_eq]
    rfl
  | chkAbsent =>
    simp only [emitted, effect, chkAbsent_eq]
    rfl

theorem effect_out (i : Instr) (s : State) : (effect i s).out = s.out ++ emitted i s :=
  (congrArg State.out (effect_with_out i s s.out) :)

theorem effect_inputs (i : Instr) (s : State) : (effect i s).inputs = s.inputs :=
  (congrArg State.inputs (effect_with_inputs i s s.inputs) :)

/-- Settles O49: legality reads `MODE` alone, and an effect, the ignored command and the fault append the same items
to any `OUT`. -/
theorem commandsDoNotReadOut : Obligations.CommandsDoNotReadOut := by
  unfold Obligations.CommandsDoNotReadOut
  intro i s t o hx
  obtain ⟨hl, hn⟩ | ⟨hl, hf, hn⟩ | ⟨hl, hf, hn⟩ := exec_cases i s <;> cases hx.symm.trans hn
  · refine ⟨emitted i s, effect_out i s, ?_⟩
    rw [← effect_with_out]
    exact exec_of_legal (s := { s with out := o }) hl
  · refine ⟨[], (List.append_nil _).symm, ?_⟩
    rw [List.append_nil]
    exact exec_ignored (s := { s with out := o }) hl hf
  · exact ⟨[.term .badSequence], rfl, exec_of_not_legal (s := { s with out := o }) hl hf⟩

theorem encPush_keeps (b : Byte) (s : State) : (encPush b s).err = s.err ∧ (encPush b s).h = s.h := by
  simp only [encPush]
  split_ifs <;> exact ⟨rfl, rfl⟩

/-- Settles O48: each `PUSH` by its effect, and the host's events because no effect changes them. -/
theorem pushLeavesTheRestAlone : Obligations.PushLeavesTheRestAlone := by
  unfold Obligations.PushLeavesTheRestAlone
  refine ⟨fun b s t hs hx => ?_, fun ch s t hs hx => ?_, fun b s t hs hx => ?_, fun i s t hx => ?_⟩
  · cases hx.symm.trans (exec_of_mode rfl hs)
    exact ⟨encPush_mode b s, encPush_keeps b s⟩
  · cases hx.symm.trans (exec_of_mode rfl hs)
    obtain ⟨hh, -, -, -⟩ := decPush_registers ch s
    refine ⟨decPush_mode ch s, hh, fun he => ?_⟩
    rw [effect, decPush_of_rejected (.inl he)]
    exact ⟨rfl, rfl, rfl⟩
  · cases hx.symm.trans (exec_of_mode rfl hs)
    rfl
  · obtain ⟨-, hn⟩ | ⟨-, -, hn⟩ | ⟨-, -, hn⟩ := exec_cases i s <;> cases hx.symm.trans hn
    · exact effect_inputs i s
    · rfl
    · rfl

/-! ## The pieces of `OUT` -/

/-- Cutting loses nothing. -/
theorem flatMap_cutPieces (pending : List Byte) (l : List Item) :
    (cutPieces pending l).1.flatMap Piece.items ++ (cutPieces pending l).2.map .data = pending.map .data ++ l := by
  induction l generalizing pending with
  | nil => simp [cutPieces]
  | cons item l ih =>
    cases item with
    | data d => simp [cutPieces, ih]
    | term c => simp [cutPieces, ih, Piece.items]

theorem cutPieces_data_append (pending ds : List Byte) (l : List Item) :
    cutPieces pending (ds.map .data ++ l) = cutPieces (pending ++ ds) l := by
  induction ds generalizing pending with
  | nil => simp
  | cons d ds ih => simp [cutPieces, ih]

/-- Pieces put together are cut where they were joined. -/
theorem cutPieces_flatMap (ps : List Piece) (pending : List Byte) :
    cutPieces [] (ps.flatMap Piece.items ++ pending.map .data) = (ps, pending) := by
  induction ps with
  | nil => simpa [cutPieces] using cutPieces_data_append [] pending []
  | cons p ps ih => simp [Piece.items, cutPieces_data_append, cutPieces, ih]

theorem State.flatMap_pieces (s : State) : s.pieces.flatMap Piece.items ++ s.provisional.map .data = s.out :=
  flatMap_cutPieces [] s.out

theorem State.eq_pieces_of_flatMap {s : State} {ps : List Piece} {pending : List Byte}
    (h : ps.flatMap Piece.items ++ pending.map .data = s.out) : s.pieces = ps ∧ s.provisional = pending := by
  rw [State.pieces, State.provisional, ← h, cutPieces_flatMap]
  exact ⟨rfl, rfl⟩

/-- Settles O51: cutting loses nothing and is undone by nothing else; the results by evaluation. -/
theorem outIsReadPieceByPiece : Obligations.OutIsReadPieceByPiece := by
  unfold Obligations.OutIsReadPieceByPiece
  exact ⟨State.flatMap_pieces, fun _ _ _ => State.eq_pieces_of_flatMap,
    fun _ => ⟨rfl, rfl, rfl, rfl, rfl, rfl, rfl⟩⟩

/-! ## Whole pieces -/

/-- After a `TERM` nothing is provisional: what was joins the new piece. -/
theorem Closes.provisional {c : TermCode} {s t : State} (h : Closes c s t) : t.provisional = [] := by
  obtain ⟨ds, hout⟩ := h
  have hcut : (s.pieces ++ [Piece.mk (s.provisional ++ ds) c]).flatMap Piece.items ++ ([] : List Byte).map .data =
      t.out := by
    rw [hout, ← s.flatMap_pieces]
    simp [Piece.items]
  exact (State.eq_pieces_of_flatMap hcut).2

theorem Continues.outClosed {s t : State} (h : Continues s t) (hs : s.OutClosed) : t.OutClosed := by
  obtain ⟨ds, hout, hmode⟩ := h
  intro henc hdec
  obtain hm | hm | ⟨rfl, hsenc, hsdec⟩ := hmode
  · exact absurd hm henc
  · exact absurd hm hdec
  · have hsame : t.out = s.out := hout.trans (List.append_nil _)
    rw [State.provisional, hsame]
    exact hs hsenc hsdec

/-- Settles O54: a step empties `OUT`, continues, or closes a piece. -/
theorem stepKeepsOutClosed : Obligations.StepKeepsOutClosed := by
  unfold Obligations.StepKeepsOutClosed
  refine ⟨fun _ _ => rfl, fun s t hs h => ?_⟩
  obtain ⟨rest, -, hout⟩ | hcont | ⟨c, hclose⟩ := step_output h
  · intro _ _
    rw [State.provisional, hout]
    rfl
  · exact hcont.outClosed hs
  · exact fun _ _ => hclose.provisional

end Sys2Proof.Machine
end

section
/-!
SUPPORT. Inside a frame: the registers and `OUT` after any number of pushes (10_state.md R14 to R18, 41_encode.md R87
and R89, 42_decode.md R117), for ENC group by group, for DEC from `decFrameState`.
-/

namespace Sys2Proof.Machine

/-! ## A frame still open -/

theorem runEffects_append (t u : List Instr) (s : State) : runEffects (t ++ u) s = runEffects u (runEffects t s) := by
  induction t generalizing s with
  | nil => rfl
  | cons i t ih => exact ih (effect i s)

/-- A beginning of a legal trace is legal. -/
theorem LegalAlong.of_append {t u : List Instr} {s : State} (h : LegalAlong (t ++ u) s) : LegalAlong t s := by
  induction t generalizing s with
  | nil => trivial
  | cons i t ih =>
    obtain ⟨hi, ht⟩ := h
    exact ⟨hi, ih ht⟩

/-- Two bits of `CNT` hold its saturated value. -/
theorem toNat_ofNat_min (n : Nat) : (BitVec.ofNat 2 (min 2 n)).toNat = min 2 n := by
  rw [BitVec.toNat_ofNat]
  omega

/-! ## An ENC frame -/

/-- The bits of bytes that have not yet gone out in a symbol (10_state.md R16). -/
def encCarryOf : List Byte → BitVec 6
  | _ :: _ :: _ :: t => encCarryOf t
  | [_, b1] => encKeep4 b1
  | [b0] => encKeep2 b0
  | [] => 0

theorem encCarryOf_of_whole_groups {b : List Byte} (h : b.length % 3 = 0) : encCarryOf b = 0 := by
  induction b using Codec.raw.induct with
  | case1 b0 b1 b2 t ih => exact ih ((Nat.add_mod_right ..).symm.trans h)
  | case2 | case3 => simp at h
  | case4 => rfl

/-- After a remainder `CARRY` holds the low bits of the last byte. -/
theorem toNat_encCarryOf {b : List Byte} {x : Byte} (hx : b.getLast? = some x) :
    (b.length % 3 = 1 → (encCarryOf b).toNat = x.toNat % 4) ∧
    (b.length % 3 = 2 → (encCarryOf b).toNat = x.toNat % 16) := by
  induction b using Codec.raw.induct with
  | case1 b0 b1 b2 t ih =>
    have hmod : (b0 :: b1 :: b2 :: t).length % 3 = t.length % 3 := Nat.add_mod_right t.length 3
    rw [hmod]
    cases t with
    | nil => exact ⟨nofun, nofun⟩
    | cons y t => exact ih (by simpa using hx)
  | case2 b0 b1 =>
    cases hx
    exact ⟨nofun, fun _ => toNat_encKeep4 b1⟩
  | case3 b0 =>
    cases hx
    exact ⟨fun _ => toNat_encKeep2 b0, nofun⟩
  | case4 => cases hx

/-- The pushes of an ENC frame from a group boundary at position `c` with `k` bytes accepted before. -/
theorem runEffects_encPush (b : List Byte) {s : State} {c k : Nat} (hphase : s.phase = 0)
    (hpos : s.pos = BitVec.ofNat 6 c) (hcarry : s.carry = 0) (hcnt : s.cnt = BitVec.ofNat 2 (min 2 k)) :
    runEffects (b.map .encPush) s = { s with
      pos := BitVec.ofNat 6 (c + (b.length + b.length / 3))
      phase := BitVec.ofNat 2 (b.length % 3)
      carry := encCarryOf b
      cnt := BitVec.ofNat 2 (min 2 (k + b.length))
      out := s.out ++ ((Codec.symbolsFrom c (Codec.raw b)).take (b.length + b.length / 3)).map .data } := by
  induction b using Codec.raw.induct generalizing s c k with
  | case1 b0 b1 b2 t ih =>
    have hmod : (b0 :: b1 :: b2 :: t).length % 3 = t.length % 3 := Nat.add_mod_right t.length 3
    have hmin : min 2 (k + (b0 :: b1 :: b2 :: t).length) = min 2 (2 + t.length) := by
      simp only [List.length_cons]
      omega
    simp only [List.map_cons, runEffects, effect, encPush_third_of_group hphase hpos]
    rw [ih (c := c + 4) (k := 2) rfl rfl rfl rfl, Codec.fixedCount_group, hmod, hmin]
    generalize t.length + t.length / 3 = n
    simp [Codec.raw, Codec.symbolsFrom, encCarryOf, Nat.add_assoc, Nat.add_comm 4]
  | case2 b0 b1 =>
    have hmin : min 2 (k + [b0, b1].length) = 2 := Nat.min_eq_left (Nat.le_add_left 2 k)
    simp only [List.map_cons, List.map_nil, runEffects, effect, encPush_second_of_group hphase hpos]
    rw [hmin]
    simp [Codec.raw, Codec.symbolsFrom, encCarryOf]
  | case3 b0 =>
    simp only [List.map_cons, List.map_nil, runEffects, effect, encPush_first_of_group hphase hpos]
    rw [hcnt, cntAfter_ofNat_min]
    simp [Codec.raw, Codec.symbolsFrom, encCarryOf]
  | case4 =>
    obtain ⟨mode, pos, phase, carry, cnt, err, h, out, inputs⟩ := s
    obtain rfl := hphase
    obtain rfl := hpos
    obtain rfl := hcarry
    obtain rfl := hcnt
    simp [runEffects, Codec.raw, Codec.symbolsFrom, encCarryOf]

/-- Settles O55: the run is the composition of the pushes' effects, which emit the symbols of the whole groups and of
the raw values a remainder completes. -/
theorem encFrameRegisters : Obligations.EncFrameRegisters := by
  unfold Obligations.EncFrameRegisters
  intro s b rest hs hi
  have hlegal : LegalAlong (.encBegin :: b.map .encPush) s :=
    (legalAlong_encodeTrace hs (some b)).of_append (t := .encBegin :: b.map .encPush)
  have hrun := run_trace hi hlegal
  rw [runEffects, effect, encBegin_eq, runEffects_encPush b (c := 0) (k := 0) rfl rfl rfl rfl, List.length_cons,
    List.length_map] at hrun
  refine ⟨_, hrun, rfl, rfl, ?_, ?_, ?_, ?_, rfl, rfl, encCarryOf_of_whole_groups, fun x => toNat_encCarryOf⟩
  · cases b with
    | nil => simp [Codec.raw, Codec.symbolsFrom]
    | cons x t => simp [Codec.encode]
  · simp
  · rw [BitVec.toNat_ofNat]
    omega
  · rw [toNat_ofNat_min, Nat.zero_add]

/-! ## A DEC frame -/

theorem carryOf_of_whole_groups {r : List Sym} (h : r.length % 4 = 0) : carryOf r = 0 := by
  induction r using carryOf.induct with
  | case1 r0 r1 r2 r3 t ih => exact ih ((Nat.add_mod_right ..).symm.trans h)
  | case2 | case3 | case4 => simp at h
  | case5 => rfl

/-- After a remainder `CARRY` holds the last raw value, or the low bits that are left of it. -/
theorem carryOf_of_remainder {r : List Sym} {v : Sym} (hv : r.getLast? = some v) :
    (r.length % 4 = 1 → carryOf r = v) ∧ (r.length % 4 = 2 → (carryOf r).toNat = v.toNat % 16) ∧
    (r.length % 4 = 3 → (carryOf r).toNat = v.toNat % 4) := by
  induction r using carryOf.induct with
  | case1 r0 r1 r2 r3 t ih =>
    have hmod : (r0 :: r1 :: r2 :: r3 :: t).length % 4 = t.length % 4 := Nat.add_mod_right t.length 4
    rw [hmod]
    cases t with
    | nil => exact ⟨nofun, nofun, nofun⟩
    | cons w t => exact ih (by simpa using hv)
  | case2 r0 r1 r2 =>
    cases hv
    exact ⟨nofun, nofun, fun _ => toNat_decKeep2 r2⟩
  | case3 r0 r1 =>
    cases hv
    exact ⟨nofun, fun _ => toNat_decKeep4 r1, nofun⟩
  | case4 r0 =>
    cases hv
    exact ⟨fun _ => rfl, nofun, nofun⟩
  | case5 => cases hv

/-- Every raw value but the first of each group completes a byte (42_decode.md R117). -/
theorem length_bytesOf_eq_sub (r : List Sym) : (Codec.bytesOf r).length = r.length - (r.length + 3) / 4 := by
  rw [Codec.length_bytesOf]
  omega

/-- What is accepted ends at the first character outside the alphabet. -/
theorem length_acceptedRaw_of_first_rejected {str : List Byte} {p : Nat} {ch : Byte} (hp : str[p]? = some ch)
    (hch : indexOf ch = none) (hbefore : ∀ ch' ∈ str.take p, indexOf ch' ≠ none) : (acceptedRaw 0 str).length = p := by
  obtain ⟨hlt, hget⟩ := List.getElem?_eq_some_iff.mp hp
  obtain ⟨r, hr⟩ := Codec.exists_rawOf_of_valid 0 hbefore
  have hlen : r.length = p := (Codec.length_of_rawOf hr).trans (List.length_take_of_le hlt.le)
  have hsplit := acceptedRaw_append hr (str.drop p)
  rw [List.take_append_drop, List.drop_eq_getElem_cons hlt, hget, acceptedRaw, hch] at hsplit
  rw [hsplit, List.append_nil, hlen]

/-- Settles O56: the run ends in the frame of the string, whose registers are functions of its length and of the raw
values accepted. -/
theorem decFrameRegisters : Obligations.DecFrameRegisters := by
  unfold Obligations.DecFrameRegisters
  intro s str rest hs hi
  have hlegal : LegalAlong (.decBegin :: str.map .decPush) s :=
    (legalAlong_decodeTrace hs (some str)).of_append (t := .decBegin :: str.map .decPush)
  have heff : runEffects (str.map .decPush) (decFrameState s []) = decFrameState s str := by
    simpa [runEffects] using runEffects_decPush s [] str []
  have hrun := run_trace hi hlegal
  rw [runEffects, effect, decBegin_eq, ← decFrameState_nil, heff, List.length_cons, List.length_map] at hrun
  refine ⟨_, Codec.bytesOf (acceptedRaw 0 str), hrun, rfl, rfl, rfl, rfl, BitVec.toNat_ofNat .., BitVec.toNat_ofNat ..,
    toNat_ofNat_min _, ?_, fun hvalid => ?_, fun p ch hp hch hbefore => ?_, fun r hr => ?_⟩
  · exact Option.isNone_iff_eq_none.trans Codec.rawOf_eq_none_iff
  · obtain ⟨r, hr⟩ := Codec.exists_rawOf_of_valid 0 hvalid
    rw [length_bytesOf_eq_sub, acceptedRaw_of_rawOf hr, Codec.length_of_rawOf hr]
  · rw [length_bytesOf_eq_sub, length_acceptedRaw_of_first_rejected hp hch hbefore]
  · have hcarry : (decFrameState s str).carry = carryOf r := congrArg carryOf (acceptedRaw_of_rawOf hr)
    rw [← Codec.length_of_rawOf hr]
    exact ⟨fun h => hcarry.trans (carryOf_of_whole_groups h), fun v hv => hcarry ▸ carryOf_of_remainder hv⟩

end Sys2Proof.Machine
end

section
/-!
SUPPORT. A trace made of whole frames (30_encoding.md R52, 70_reset_and_hazards.md R197): each of its commands is legal
where it stands, no legal command reports a protocol fault, and where no frame is open the invariant of 10_state.md R23
says that the registers are cleared.
-/

namespace Sys2Proof.Machine

/-- The mode while a frame of the given unit is open, IDLE while none is (30_encoding.md R52). -/
def openMode : Option FrameUnit → Mode
  | none => .idle
  | some .enc => .enc
  | some .dec => .dec
  | some .chk => .chk

/-- The grammar of frames and the mode table agree: the next command is legal, and the rest is read with the frame
open in which the command leaves the block (44_system.md R152). -/
theorem wellFramedFrom_cons {u : Option FrameUnit} {i : Instr} {t : List Instr}
    (h : wellFramedFrom u (i :: t) = true) :
    legalIn i (openMode u) = true ∧
    ∃ u', modeTable (unitMode i) (column i) (openMode u) = openMode u' ∧ wellFramedFrom u' t = true := by
  cases i with
  | sysRst => exact ⟨rfl, none, modeTable_rst .., h⟩
  | _ =>
    simp only [wellFramedFrom, Bool.and_eq_true, beq_iff_eq] at h
    obtain ⟨rfl, ht⟩ := h
    exact ⟨rfl, _, rfl, ht⟩

/-- From `s` to `t`, `OUT` grows and the code of a protocol fault is not among what is appended. -/
def AppendsNoFault (s t : State) : Prop :=
  ∃ items : List Item, t.out = s.out ++ items ∧ .term .illegalCmd ∉ items ∧ .term .badSequence ∉ items

theorem AppendsNoFault.refl (s : State) : AppendsNoFault s s := ⟨[], (List.append_nil _).symm, nofun, nofun⟩

theorem AppendsNoFault.trans {s t u : State} (h : AppendsNoFault s t) (h' : AppendsNoFault t u) :
    AppendsNoFault s u := by
  obtain ⟨items, hout, hill, hbad⟩ := h
  obtain ⟨items', hout', hill', hbad'⟩ := h'
  refine ⟨items ++ items', by rw [hout', hout, List.append_assoc], ?_, ?_⟩
  · simp [hill, hill']
  · simp [hbad, hbad']

theorem effect_appendsNoFault {i : Instr} {s : State} (hl : legalIn i s.mode = true) :
    AppendsNoFault s (effect i s) := by
  obtain ⟨ds, hout, -⟩ | ⟨c, ⟨hill, hbad⟩, ds, hout⟩ := effect_output hl
  · exact ⟨ds.map .data, hout, by simp, by simp⟩
  · exact ⟨ds.map .data ++ [.term c], by rw [hout, List.append_assoc], by simp [hill.symm], by simp [hbad.symm]⟩

/-- A well-framed rest of a trace, taken in the mode of the frame that is open. -/
theorem runEffects_wellFramed {trace : List Instr} {u : Option FrameUnit} {s : State} (hm : s.mode = openMode u)
    (hinv : s.Inv) (hw : wellFramedFrom u trace = true) :
    LegalAlong trace s ∧ (runEffects trace s).mode = .idle ∧ (runEffects trace s).Inv ∧
    AppendsNoFault s (runEffects trace s) := by
  induction trace generalizing u s with
  | nil =>
    have hu : u = none := by simpa [wellFramedFrom] using hw
    subst hu
    exact ⟨trivial, hm, hinv, .refl s⟩
  | cons i t ih =>
    obtain ⟨hl, u', hu', ht⟩ := wellFramedFrom_cons hw
    rw [← hm] at hl hu'
    obtain ⟨hlegal, hidle, hinv', happ⟩ := ih ((effect_mode hl).trans hu') (effect_keeps_inv hl hinv) ht
    exact ⟨⟨hl, hlegal⟩, hidle, hinv', (effect_appendsNoFault hl).trans happ⟩

/-- Settles O60: the trace is legal along its run, which ends in IDLE with the invariant. -/
theorem wellFramedTraceNeverFaults : Obligations.WellFramedTraceNeverFaults := by
  unfold Obligations.WellFramedTraceNeverFaults
  intro s trace rest hs hc hw hi
  obtain ⟨hlegal, hidle, hinv, items, hout, hill, hbad⟩ := runEffects_wellFramed (u := none) hs (.of_cleared hc) hw
  have hcomplete : (runEffects trace s).runEnd = .complete := by rw [State.runEnd, hidle]
  exact ⟨_, items, run_trace hi hlegal, rfl, hout, hill, hbad, hcomplete, hinv.closed (.inl hidle)⟩

end Sys2Proof.Machine
end
